-- ==== Sys2Proof/Word.lean ====
section
/-! DEFINITION. The word types of MSDEC and the one record type (R11, R14, R64, R105). -/

namespace Sys2Proof

/-- A byte of a stream or of a memory (R14). -/
abbrev Byte := BitVec 8

/-- A 32-bit geometry register (R11). -/
abbrev Word := BitVec 32

/-- One ADPCM code, `skkk` (R105). -/
abbrev Code := BitVec 4

/-- One record of memory TRL: row, start column and length of a transparency run (R64). -/
structure TrlRecord where
  row : Nat
  col : Nat
  len : Nat
  deriving DecidableEq, Repr

end Sys2Proof
end

