-- ==== Sys2Proof/Machine/Operands.lean ====
section
/-! DEFINITION. The operand forms of the tokens and of the ADPCM code, and the arithmetic the rules name (R14, R63, R99,
R105). -/

namespace Sys2Proof.Machine

/-- `zext(v)`: a byte as a natural number 0 to 255 (R14, R99). -/
def zext (v : Byte) : Nat :=
  v.toNat

/-- `clamp(v, lo, hi)` (R14). -/
def clamp (v lo hi : Int) : Int :=
  if v < lo then lo else if v > hi then hi else v

/-- The sign bit `s = c[3]` of a code (R105). -/
def codeSign (c : Code) : Bool :=
  c.getLsbD 3

/-- The magnitude bits `k = c[2:0]` of a code (R105). -/
def codeMagnitude (c : Code) : Nat :=
  (c.extractLsb' 0 3).toNat

/-- The index in PIX and KEY of the pixel at `(row, col)` of a canvas of width `cw` (R63). -/
def pixIndex (cw : Nat) (row col : Nat) : Nat :=
  row * cw + col

end Sys2Proof.Machine
end

