-- ==== Sys2Proof/Config.lean ====
section
/-! DEFINITION. What an implementation fixes (R12: the open parameters, which State carries so that a claim holds for
every choice; log entry 5) and the free values, which nothing constrains (R237, R261; log entries 8 and 9). -/

namespace Sys2Proof

/-- The four parameters R12 leaves open. A capacity of `none` is "unbounded". -/
structure Params where
  /-- Width in bits of IN_LEN, KEY_LEN and AIN_LEN, at least 1. -/
  lenBits : Nat
  /-- Capacity of PIX in bytes. -/
  pixCap : Option Nat
  /-- Capacity of TRL in records. -/
  trlCap : Option Nat
  /-- Capacity of PCM in 16-bit samples. -/
  pcmCap : Option Nat
  deriving DecidableEq, Repr

/-- What PIX holds after an error or a RESET: any bytes at any indices (R237, R261). The argument is a draw counter. -/
opaque Config.freePix : Nat → List (Nat × Byte)

/-- What TRL holds after an error: any records, any number of them (R237). -/
opaque Config.freeTrl : Nat → List TrlRecord

/-- What PCM holds after an error or a RESET (R237, R261). -/
opaque Config.freePcm : Nat → List (Nat × Byte)

/-- What OUT_COUNT holds after an error of ADPU (R237). -/
opaque Config.freeOutCount : Nat → Nat

/-- What IN holds after a RESET event (R261). -/
opaque Config.freeIn : Nat → List (Nat × Byte)

/-- What KEY holds after a RESET event (R261). -/
opaque Config.freeKey : Nat → List (Nat × Byte)

/-- What AIN holds after a RESET event (R261). -/
opaque Config.freeAin : Nat → List (Nat × Byte)

end Sys2Proof
end

