-- ==== Sys2Proof/Machine/Memory.lean ====
section
/-! DEFINITION. A byte memory as data, and the named operations on it (R14, R60, R68, R72). -/

namespace Sys2Proof.Machine

/-- A memory: the cells that hold something else than an unlisted byte reads as, at strictly rising addresses. -/
abbrev Memory := List Host.Cell

/-- What a byte that nothing has written reads as (log entry 2; for PIX it is also the pre-zeroed pixel, R63). -/
def Memory.unlisted : Byte := 0x00

/-- The canonical form: strictly rising addresses, and no cell that equals an unlisted byte. -/
abbrev Memory.wf (m : Memory) : Prop :=
  m.Pairwise (fun x y => x.1 < y.1) ∧ ∀ c ∈ m, c.2 ≠ Memory.unlisted

/-- `MemRead(S, a, 1)` (R14). -/
def Memory.read (m : Memory) (a : Nat) : Byte :=
  match m with
  | [] => Memory.unlisted
  | (b, v) :: rest => if a = b then v else Memory.read rest a

/-- Put a cell into its place by address, replacing the cell there. -/
def Memory.insert (m : Memory) (a : Nat) (v : Byte) : Memory :=
  match m with
  | [] => [(a, v)]
  | (b, w) :: rest =>
    if a < b then (a, v) :: (b, w) :: rest
    else if a = b then (a, v) :: rest
    else (b, w) :: Memory.insert rest a v

/-- Take the cell at an address out. -/
def Memory.erase (m : Memory) (a : Nat) : Memory :=
  m.filter fun c => c.1 ≠ a

/-- `MemWrite(S, a, 1, v)` (R14). Writing what an unlisted byte reads as removes the cell. -/
def Memory.write (m : Memory) (a : Nat) (v : Byte) : Memory :=
  if v = Memory.unlisted then Memory.erase m a else Memory.insert m a v

/-- Write bytes at rising addresses from `a`. -/
def Memory.writeBytes (m : Memory) (a : Nat) (bytes : List Byte) : Memory :=
  match bytes with
  | [] => m
  | v :: rest => Memory.writeBytes (Memory.write m a v) (a + 1) rest

/-- The `n` bytes from address `a`. -/
def Memory.slice (m : Memory) (a n : Nat) : List Byte :=
  match n with
  | 0 => []
  | k + 1 => Memory.read m a :: Memory.slice m (a + 1) k

/-- `for i in 0 .. n-1: MemWrite(S, i, 1, 0x00)` (R124, R125): bytes at and above `n` stay. -/
def Memory.zeroBelow (m : Memory) (n : Nat) : Memory :=
  m.filter fun c => n ≤ c.1

/-- Write 0x00 to the `n` bytes from address `a`. -/
def Memory.zeroRange (m : Memory) (a n : Nat) : Memory :=
  m.filter fun c => c.1 < a || a + n ≤ c.1

/-- Store a 16-bit value little-endian at element index `i`: `v[7:0]` at `2 * i`, `v[15:8]` at `2 * i + 1` (R68). -/
def Memory.write16 (m : Memory) (i : Nat) (v : BitVec 16) : Memory :=
  Memory.write (Memory.write m (2 * i) (v.extractLsb' 0 8)) (2 * i + 1) (v.extractLsb' 8 8)

/-- The 16-bit value at element index `i` (R68). -/
def Memory.read16 (m : Memory) (i : Nat) : BitVec 16 :=
  Memory.read m (2 * i + 1) ++ Memory.read m (2 * i)

/-- The memory that a list of writes leaves, in canonical form whatever the list. -/
def Memory.ofCells (cells : List Host.Cell) : Memory :=
  cells.foldl (fun m c => Memory.write m c.1 c.2) []

end Sys2Proof.Machine
end

