-- ==== Sys2Proof/Syntax.lean ====
section
/-! DEFINITION. The instructions of MSDEC: one constructor per row of spec/opcode_table.json. Every operand is the byte
or the 4-bit code the encoding gives (R91 to R95, R99, R105). -/

namespace Sys2Proof

/-- The six tokens of the RLE stream, its header prefix, and the one ADPCM operation. -/
inductive Instr where
  /-- The optional header `00 00` at index 0 (R100, R127). -/
  | hdr
  /-- End of row, `00 00` (R153). -/
  | eor
  /-- End of image, `00 01` (R155). -/
  | eoi
  /-- Begin transparency run, `00 02` (R158). -/
  | trn
  /-- Reposition, `00 03 dx dy` (R160). -/
  | repos (dx dy : Byte)
  /-- Raw run, `00 k p1 … pk`, then a pad byte if `k` is odd; `k` is the payload's length (R95, R162). The pad byte's
  value is no operand (R102; log entry 13). -/
  | raw (payload : List Byte)
  /-- Literal run, `n colour` (R92, R151). -/
  | lit (n colour : Byte)
  /-- Decode one 4-bit code (R105, R207). -/
  | sample (c : Code)
  deriving DecidableEq, Repr

/-- The number of stream bytes an RLE token or the header takes: 2, 4 or `2 + k + (k mod 2)` (R91, R96, R98). SAMPLE is
half a byte long and takes no RLE byte: 0. -/
def Instr.lengthBytes : Instr → Nat
  | .hdr => 2
  | .eor => 2
  | .eoi => 2
  | .trn => 2
  | .repos _ _ => 4
  | .raw payload => 2 + payload.length + payload.length % 2
  | .lit _ _ => 2
  | .sample _ => 0

/-- The six tokens RLEU executes, as against the prefix HDR and the code SAMPLE (opcode_table.json, "kind"). -/
def Instr.isToken : Instr → Bool
  | .hdr => false
  | .eor => true
  | .eoi => true
  | .trn => true
  | .repos _ _ => true
  | .raw _ => true
  | .lit _ _ => true
  | .sample _ => false

end Sys2Proof
end

