-- ==== Sys2Proof/Machine/State.lean ====
section
/-! DEFINITION. The state of MSDEC as plain data: every register of 10_state.md and every memory of 20_memory.md, the
parameters of R12, and the events still to happen. -/

namespace Sys2Proof.Machine

/-- Why a step refuses. Each is raised by a move HOST must not make, and is safe: the model gives such a move no
effect. No token and no code refuses. -/
inductive Refusal where
  /-- Raised by an arm of exec for an instruction that has no meaning yet. Safe. -/
  | notModelled (mnemonic : String)
  /-- Raised by RLE_START in RUN or COMPOSE and by ADP_START in RUN (R269, U3). Safe. -/
  | startWhileRunning
  /-- Raised by a HOST write of a parameter register while its unit runs (R30, R268, U4). Safe. -/
  | parameterWriteWhileRunning
  /-- Raised by a HOST write of IN, KEY or AIN while the unit that reads it runs (R69, R268, U4). Safe. -/
  | memoryWriteWhileRunning
  /-- Raised by a HOST read of IN, KEY or AIN while the unit that reads it runs (R69, R76); never by a step. Safe. -/
  | memoryReadWhileRunning
  /-- Raised by a start command whose job would read a parameter register that HOST has not written since RESET
  (R53, R264, R265, U5). Safe. -/
  | parameterNeverWritten
  /-- Raised by a HOST write of a length that LEN_BITS bits do not hold (R27; log entry 14). Safe. -/
  | lengthTooWide
  /-- Raised by a HOST read of PIX, TRL or PCM outside DONE (R69, R270, U4); never by a step. Safe. -/
  | outputReadBeforeDone
  deriving DecidableEq, Repr

/-- Why the machine stops with a fault. The decode errors of R231 are no faults: they lead to state ERR. -/
inductive Fault where
  /-- Raised by a HOST read of an element of PIX, TRL or PCM that does not exist (R63, R64, R68; log entry 16); never by
  a step. Safe. -/
  | noSuchElement
  deriving DecidableEq, Repr

/-- RSTATE (R31). -/
inductive RState where
  | idle | run | compose | done | err
  deriving DecidableEq, Repr

/-- ASTATE (R46). -/
inductive AState where
  | idle | run | done | err
  deriving DecidableEq, Repr

/-- The error kinds of ERR_CODE and AERR_CODE (R231). -/
inductive ErrCode where
  | none | truncatedStream | geometryOverflow | sizeMismatch | allocationFailure | writeOutOfCanvas
  deriving DecidableEq, Repr

/-- RCTRL (R29). -/
structure Rctrl where
  keyPresent : Bool
  cwSet : Bool
  chSet : Bool
  deriving DecidableEq, Repr

/-- Which parameter registers of RLEU that have no reset value HOST has written since RESET (R264, U5). The model's own
field (log entry 10). -/
structure RleuWritten where
  frameW : Bool
  frameH : Bool
  canvasW : Bool
  canvasH : Bool
  inLen : Bool
  keyLen : Bool
  deriving DecidableEq, Repr

/-- Unit RLEU. -/
structure Rleu where
  /-- FRAME_W (R21). -/
  frameW : Word
  /-- FRAME_H (R22). -/
  frameH : Word
  /-- CANVAS_W (R23). -/
  canvasW : Word
  /-- CANVAS_H (R24). -/
  canvasH : Word
  /-- FRAME_X (R25). -/
  frameX : Word
  /-- FRAME_Y (R26). -/
  frameY : Word
  /-- IN_LEN (R27). -/
  inLen : Nat
  /-- KEY_LEN (R28). -/
  keyLen : Nat
  /-- RCTRL (R29). -/
  rctrl : Rctrl
  written : RleuWritten
  /-- RSTATE (R31). -/
  rstate : RState
  /-- ERR_CODE (R40). -/
  errCode : ErrCode
  /-- ERR_POS (R41). -/
  errPos : Nat
  /-- ERR_ROW (R41). -/
  errRow : Nat
  /-- ERR_COL (R41). -/
  errCol : Nat
  /-- CW_EFF (R32). -/
  cwEff : Word
  /-- CH_EFF (R32). -/
  chEff : Word
  /-- POS, the program counter of RLEU (R34). -/
  pos : Nat
  /-- ROW (R35). -/
  row : Nat
  /-- COL (R36). -/
  col : Nat
  /-- T_ARMED (R37). -/
  tArmed : Bool
  /-- T_ROW (R38). -/
  tRow : Nat
  /-- T_COL (R38). -/
  tCol : Nat
  /-- Memory IN (R61). -/
  inMem : Memory
  /-- Memory KEY (R62). -/
  keyMem : Memory
  /-- Memory PIX (R63). -/
  pix : Memory
  /-- Memory TRL (R64), oldest record first. Register TRL_COUNT (R39) is this list's length (log entry 18). -/
  trl : List TrlRecord
  /-- How many free values RLEU has drawn. The model's own field (log entry 8). -/
  draws : Nat
  deriving DecidableEq, Repr

/-- TRL_COUNT: the number of records in memory TRL (R39). -/
def Rleu.trlCount (r : Rleu) : Nat :=
  r.trl.length

/-- Unit ADPU. -/
structure Adpu where
  /-- AIN_LEN (R43). -/
  ainLen : Nat
  /-- Has HOST written AIN_LEN since RESET (R265, U5)? The model's own field (log entry 10). -/
  ainLenWritten : Bool
  /-- ASTATE (R46). -/
  astate : AState
  /-- AERR_CODE (R51). -/
  aerrCode : ErrCode
  /-- PREDICTOR, a signed integer (R44). -/
  predictor : Int
  /-- STEP_INDEX, 0 to 88 (R45). -/
  stepIndex : Fin 89
  /-- APOS (R48). -/
  apos : Nat
  /-- NIB, the nibble phase: false is the high nibble, true the low one (R49). -/
  nib : Bool
  /-- OUT_COUNT (R50). -/
  outCount : Nat
  /-- Memory AIN (R67). -/
  ain : Memory
  /-- Memory PCM as bytes, sample `i` little-endian at `2 * i` (R68). -/
  pcm : Memory
  /-- How many free values ADPU has drawn. The model's own field (log entry 8). -/
  draws : Nat
  deriving DecidableEq, Repr

/-- One move of HOST (R264 to R266): a write of a parameter register or of a byte of an input memory, a command, or
RESET. -/
inductive HostMove where
  | writeFrameW (v : Word)
  | writeFrameH (v : Word)
  | writeCanvasW (v : Word)
  | writeCanvasH (v : Word)
  | writeFrameX (v : Word)
  | writeFrameY (v : Word)
  | writeInLen (v : Nat)
  | writeKeyLen (v : Nat)
  | writeRctrl (v : Rctrl)
  | writeIn (a : Nat) (v : Byte)
  | writeKey (a : Nat) (v : Byte)
  | rleStart
  | writeAinLen (v : Nat)
  | writeAin (a : Nat) (v : Byte)
  | adpStart
  | reset
  deriving DecidableEq, Repr

/-- One thing that happens next: a turn of a unit or a move of HOST (R9; log entry 3). -/
inductive Event where
  | rleu
  | adpu
  | host (m : HostMove)
  deriving DecidableEq, Repr

/-- MSDEC with what is still to happen to it. -/
structure State where
  /-- The open parameters of R12; no step changes them (log entry 5). -/
  params : Params
  rleu : Rleu
  adpu : Adpu
  /-- The events still to happen, the next one first (log entry 3). -/
  pending : List Event
  deriving DecidableEq, Repr

/-- RLEU after RESET (R53, R260); a register the spec leaves unspecified is 0 (log entry 1), and the memories list
nothing (log entry 2). -/
def Rleu.reset : Rleu where
  frameW := 0
  frameH := 0
  canvasW := 0
  canvasH := 0
  frameX := 0
  frameY := 0
  inLen := 0
  keyLen := 0
  rctrl := ⟨false, false, false⟩
  written := ⟨false, false, false, false, false, false⟩
  rstate := .idle
  errCode := .none
  errPos := 0
  errRow := 0
  errCol := 0
  cwEff := 0
  chEff := 0
  pos := 0
  row := 0
  col := 0
  tArmed := false
  tRow := 0
  tCol := 0
  inMem := []
  keyMem := []
  pix := []
  trl := []
  draws := 0

/-- ADPU after RESET (R53, R260; log entries 1 and 2). -/
def Adpu.reset : Adpu where
  ainLen := 0
  ainLenWritten := false
  astate := .idle
  aerrCode := .none
  predictor := 0
  stepIndex := 0
  apos := 0
  nib := false
  outCount := 0
  ain := []
  pcm := []
  draws := 0

/-- The parameters of the machine that State.reset is: lengths of 32 bits, as R12 suggests, and memories without a bound
(log entry 5). -/
def Params.reset : Params where
  lenBits := 32
  pixCap := none
  trlCap := none
  pcmCap := none

/-- The machine right after reset (R260 to R262). -/
def State.reset : State where
  params := Params.reset
  rleu := Rleu.reset
  adpu := Adpu.reset
  pending := []

/-- Replace unit RLEU. -/
def State.setRleu (s : State) (r : Rleu) : State := { s with rleu := r }

/-- Replace unit ADPU. -/
def State.setAdpu (s : State) (d : Adpu) : State := { s with adpu := d }

/-- Replace the events still to happen. -/
def State.setPending (s : State) (events : List Event) : State := { s with pending := events }

end Sys2Proof.Machine
end

