-- ==== Sys2Proof/Machine/Ops.lean ====
section
/-! DEFINITION. The named operations of the units over registers and memories: capacities, error entry (the one
operation every error takes), the two write primitives, the end of the token pass, and RESET. -/

namespace Sys2Proof.Machine

/-! ### Capacities and free values -/

/-- Do `n` elements fit a capacity? An unbounded memory fits any number (R12, R123). -/
def withinCap (cap : Option Nat) (n : Nat) : Bool :=
  match cap with
  | none => true
  | some c => n ≤ c

/-- Any contents of PIX that its capacity holds (R237, R261). -/
def anyPix (p : Params) (n : Nat) : Memory :=
  Memory.ofCells ((Config.freePix n).filter fun c => withinCap p.pixCap (c.1 + 1))

/-- Any contents of TRL that its capacity holds, and with them any TRL_COUNT up to TRL_CAP (R39, R237). -/
def anyTrl (p : Params) (n : Nat) : List TrlRecord :=
  match p.trlCap with
  | none => Config.freeTrl n
  | some c => (Config.freeTrl n).take c

/-- Any contents of PCM that its capacity in samples holds (R237, R261). -/
def anyPcm (p : Params) (n : Nat) : Memory :=
  Memory.ofCells ((Config.freePcm n).filter fun c => withinCap p.pcmCap (c.1 / 2 + 1))

/-- Any value of the `LEN_BITS + 2` bits of OUT_COUNT (R53, R237). -/
def anyOutCount (p : Params) (n : Nat) : Nat :=
  Config.freeOutCount n % 2 ^ (p.lenBits + 2)

/-! ### The canvas -/

/-- CW, the effective canvas width of the job, as a natural number (R14, R32). -/
def Rleu.cw (r : Rleu) : Nat :=
  r.cwEff.toNat

/-- CH, the effective canvas height of the job, as a natural number (R14, R32). -/
def Rleu.ch (r : Rleu) : Nat :=
  r.chEff.toNat

/-! ### Error entry: `raise E(pos, row, col)` (R236). There is no return from an error beside it: only a start command
or RESET leaves ERR (R240). -/

/-- The step is abandoned, so every register keeps its value, but for the error registers and RSTATE; the output
memories hold any value from then on (R150, R236, R237; log entry 8). -/
def Rleu.raise (p : Params) (r : Rleu) (e : ErrCode) (pos row col : Nat) : Rleu :=
  { r with
    errCode := e
    errPos := pos
    errRow := row
    errCol := col
    rstate := .err
    pix := anyPix p r.draws
    trl := anyTrl p r.draws
    draws := r.draws + 1 }

/-- An error of a token step: its context is POS, ROW and COL at the start of the token (R41, R129, R236). -/
def tokenError (s : State) (e : ErrCode) : Host.Outcome State Fault Refusal :=
  .next (s.setRleu (Rleu.raise s.params s.rleu e s.rleu.pos s.rleu.row s.rleu.col))

/-- An error of the job-start step: its context is `(0, FRAME_Y, FRAME_X)` (R41, R121 to R123). -/
def Rleu.jobError (p : Params) (r : Rleu) (e : ErrCode) : Rleu :=
  Rleu.raise p r e 0 r.frameY.toNat r.frameX.toNat

/-- The error entry of ADPU, which has no context registers (R51, R200, R237, R238). -/
def Adpu.raise (p : Params) (d : Adpu) (e : ErrCode) : Adpu :=
  { d with
    aerrCode := e
    astate := .err
    pcm := anyPcm p d.draws
    outCount := anyOutCount p d.draws
    draws := d.draws + 1 }

/-! ### The write primitives -/

/-- `PixWrite(r, c, v)`: nothing where it raises WriteOutOfCanvas (R65). -/
def Rleu.pixWrite (r : Rleu) (row col : Nat) (v : Byte) : Option Rleu :=
  if row ≥ r.ch ∨ col ≥ r.cw then none
  else some { r with pix := Memory.write r.pix (pixIndex r.cw row col) v }

/-- `for i in 0 .. n-1: PixWrite(row, col + i, …)`, the pixels in order, up to the first that raises (R151, R162). -/
def Rleu.pixWriteRun (r : Rleu) (row col : Nat) (pixels : List Byte) : Option Rleu :=
  match pixels with
  | [] => some r
  | v :: rest =>
    match r.pixWrite row col v with
    | none => none
    | some r' => Rleu.pixWriteRun r' row (col + 1) rest

/-- `TrlAppend(r, c, n)`: nothing where it raises AllocationFailure (R66). -/
def Rleu.trlAppend (p : Params) (r : Rleu) (record : TrlRecord) : Option Rleu :=
  if withinCap p.trlCap (r.trlCount + 1) then some { r with trl := r.trl ++ [record] }
  else none

/-! ### The read position and the end of the token pass -/

/-- Skip the header: `POS <- 2` (R127). -/
def Rleu.skipHeader (r : Rleu) : Rleu :=
  { r with pos := 2 }

/-- Input exhaustion at a token boundary: `T_ARMED <- 0`, `RSTATE <- COMPOSE` (R130). -/
def Rleu.endPass (r : Rleu) : Rleu :=
  { r with tArmed := false, rstate := .compose }

/-! ### RESET (R260, R261, R272) -/

/-- RLEU after a RESET event: the reset values in the registers, any value in the memories, no record in TRL (log
entry 9). -/
def Rleu.afterReset (p : Params) (r : Rleu) : Rleu :=
  { Rleu.reset with
    inMem := Memory.ofCells (Config.freeIn r.draws)
    keyMem := Memory.ofCells (Config.freeKey r.draws)
    pix := anyPix p r.draws
    draws := r.draws + 1 }

/-- ADPU after a RESET event (log entry 9). -/
def Adpu.afterReset (p : Params) (d : Adpu) : Adpu :=
  { Adpu.reset with
    ain := Memory.ofCells (Config.freeAin d.draws)
    pcm := anyPcm p d.draws
    draws := d.draws + 1 }

end Sys2Proof.Machine
end

