-- ==== Sys2Proof/Machine/Composite.lean ====
section
/-! DEFINITION. The composite step of RLEU (R180 to R185) and the byte-mask view of the run list (R187). -/

namespace Sys2Proof.Machine

/-- `BG_INDEX` (R13, R183). -/
def bgIndex : Byte := 0x00

/-- Copy `n` bytes of KEY into PIX at the same indices, from `a` (R182). -/
def copySpan (key pix : Memory) (a n : Nat) : Memory :=
  match n with
  | 0 => pix
  | k + 1 => copySpan key (Memory.write pix a (Memory.read key a)) (a + 1) k

/-- Run compositing over the records in list order (R182). -/
def composeRuns (key pix : Memory) (cw : Nat) (records : List TrlRecord) : Memory :=
  match records with
  | [] => pix
  | t :: rest => composeRuns key (copySpan key pix (pixIndex cw t.row t.col) t.len) cw rest

/-- The fallback rule over the `n` indices from `a`: KEY where the pixel is the background (R183). -/
def composeBackground (key pix : Memory) (a n : Nat) : Memory :=
  match n with
  | 0 => pix
  | k + 1 =>
    if Memory.read pix a = bgIndex then composeBackground key (Memory.write pix a (Memory.read key a)) (a + 1) k
    else composeBackground key pix (a + 1) k

/-- PIX after the composite step: untouched without a keyframe, else run compositing if a run was recorded, else the
fallback rule over the whole canvas (R181). -/
def Rleu.composedPix (r : Rleu) : Memory :=
  if r.rctrl.keyPresent then
    if r.trlCount > 0 then composeRuns r.keyMem r.pix r.cw r.trl
    else composeBackground r.keyMem r.pix 0 (r.cw * r.ch)
  else r.pix

/-- The composite step (R180). -/
def Rleu.composite (r : Rleu) : Rleu :=
  { r with pix := r.composedPix, rstate := .done }

/-- Does a record cover the index `a` of a canvas of width `cw`? (R187) -/
def TrlRecord.covers (cw : Nat) (t : TrlRecord) (a : Nat) : Bool :=
  decide (pixIndex cw t.row t.col ≤ a) && decide (a < pixIndex cw t.row t.col + t.len)

/-- `Mask(TRL)` at index `a`: 0xFF for a transparent pixel, 0x00 for an opaque one (R187). -/
def maskByte (cw : Nat) (records : List TrlRecord) (a : Nat) : Byte :=
  if records.any (fun t => TrlRecord.covers cw t a) then 0xFF else 0x00

end Sys2Proof.Machine
end

