-- ==== Sys2Proof/Machine/Tables.lean ====
section
/-! DEFINITION. The two constant tables of ADPU, with the values R205 and R206 give (from general knowledge, G1 and G2;
log entries 6 and 7). -/

namespace Sys2Proof.Machine

/-- `STEP_TABLE`, index 0 to 88 (R205). -/
def stepTable : List Nat :=
  [7, 8, 9, 10, 11, 12, 13, 14] ++ [16, 17, 19, 21, 23, 25, 28, 31] ++
  [34, 37, 41, 45, 50, 55, 60, 66] ++ [73, 80, 88, 97, 107, 118, 130, 143] ++
  [157, 173, 190, 209, 230, 253, 279, 307] ++ [337, 371, 408, 449, 494, 544, 598, 658] ++
  [724, 796, 876, 963, 1060, 1166, 1282, 1411] ++ [1552, 1707, 1878, 2066, 2272, 2499, 2749, 3024] ++
  [3327, 3660, 4026, 4428, 4871, 5358, 5894, 6484] ++ [7132, 7845, 8630, 9493, 10442, 11487, 12635, 13899] ++
  [15289, 16818, 18500, 20350, 22385, 24623, 27086, 29794] ++ [32767]

/-- `STEP_TABLE[i]` (R204). -/
def stepSize (i : Fin 89) : Nat :=
  stepTable.getD i.val 0

/-- `INDEX_DELTA`, index 0 to 7 (R206). -/
def indexDeltaTable : List Int :=
  [-1, -1, -1, -1, 2, 4, 6, 8]

/-- `INDEX_DELTA[k]` (R206, R211). -/
def indexDelta (k : Nat) : Int :=
  indexDeltaTable.getD k 0

end Sys2Proof.Machine
end

