-- ==== Sys2Proof/Machine/Adpcm.lean ====
section
/-! DEFINITION. Unit ADPU: the job-start step, the finishing step and SAMPLE (R200 to R217). -/

namespace Sys2Proof.Machine

/-- The job-start step of ADPU: AERR_CODE is cleared, then the capacity check, then the initialisation (R200, R201). -/
def Adpu.jobStart (p : Params) (d : Adpu) : Adpu :=
  if !withinCap p.pcmCap (2 * d.ainLen) then Adpu.raise p d .allocationFailure
  else
    { d with
      aerrCode := .none
      predictor := 0
      stepIndex := 0
      apos := 0
      nib := false
      outCount := 0
      astate := .run }

/-- The step that finds every byte consumed (R202). -/
def Adpu.finish (d : Adpu) : Adpu :=
  { d with astate := .done }

/-- The magnitude `m = ((2 * k + 1) * step) >> 3`: the exact product, divided once (R208). -/
def magnitude (k step : Nat) : Nat :=
  ((2 * k + 1) * step) >>> 3

/-- The signed difference `d` (R209). -/
def difference (c : Code) (step : Nat) : Int :=
  if codeSign c then -(magnitude (codeMagnitude c) step : Int) else (magnitude (codeMagnitude c) step : Int)

/-- The predictor update: exact sum, then saturation to 16 bits (R210). -/
def nextPredictor (predictor : Int) (c : Code) (step : Nat) : Int :=
  clamp (predictor + difference c step) (-32768) 32767

/-- The step-index update, clamped to 0 to 88; the delta depends on the magnitude bits only (R211). -/
def nextStepIndex (i : Fin 89) (c : Code) : Fin 89 :=
  Fin.ofNat 89 (clamp ((i.val : Int) + indexDelta (codeMagnitude c)) 0 88).toNat

/-- `MemWrite16(PCM, i, v)`: the 16-bit two's-complement form of `v` as sample `i` (R68, R212). -/
def writeSample (pcm : Memory) (i : Nat) (v : Int) : Memory :=
  Memory.write16 pcm i (BitVec.ofInt 16 v)

/-- The code pointer moves on by one nibble (R212). -/
def Adpu.advance (d : Adpu) : Adpu :=
  { d with apos := if d.nib then d.apos + 1 else d.apos, nib := !d.nib }

/-- SAMPLE (R207): the step is looked up before STEP_INDEX is updated (R204), and the new PREDICTOR is emitted (R212). -/
def execSample (c : Code) (s : State) : Host.Outcome State Fault Refusal :=
  let d := s.adpu
  let predictor := nextPredictor d.predictor c (stepSize d.stepIndex)
  .next (s.setAdpu
    { d.advance with
      predictor := predictor
      stepIndex := nextStepIndex d.stepIndex c
      pcm := writeSample d.pcm d.outCount predictor
      outCount := d.outCount + 1 })

end Sys2Proof.Machine
end

