-- ==== Sys2Proof/Decode.lean ====
section
/-! DEFINITION. Decoding the RLE token stream and the ADPCM code stream (R90 to R107), total on any bytes, and the
encoder written from the same rules. -/

namespace Sys2Proof

/-- Which of the six tokens a pair of first bytes selects. -/
inductive TokenKind where
  | eor | eoi | trn | repos | raw | lit
  deriving DecidableEq, Repr

/-- The opcode map of the first two bytes of a token: `b0` is the length byte, `b1` the colour or opcode byte
(R96, R98, R129). -/
def selectToken (b0 b1 : Byte) : TokenKind :=
  if b0 ≠ 0x00 then .lit
  else if b1 = 0x00 then .eor
  else if b1 = 0x01 then .eoi
  else if b1 = 0x02 then .trn
  else if b1 = 0x03 then .repos
  else .raw

/-- What a token fetch finds in the bytes that are left of the stream. -/
inductive Decoded where
  /-- A whole token, and the bytes after it. -/
  | token (i : Instr) (rest : List Byte)
  /-- No byte is left: input exhaustion at a token boundary (R130). -/
  | exhausted
  /-- A token has begun and a later byte of it is missing (R131, R232). -/
  | truncated
  deriving DecidableEq, Repr

/-- REPOS after its first two bytes: `dx`, then `dy` (R94, R160). -/
def decodeRepos (operands : List Byte) : Decoded :=
  match operands with
  | dx :: dy :: rest => .token (.repos dx dy) rest
  | [_] => .truncated
  | [] => .truncated

/-- The number of bytes a raw run of `k` bytes has after its first two: the payload and, for an odd `k`, the pad byte
(R95, R71). -/
def rawTail (k : Nat) : Nat :=
  k + k % 2

/-- Are there fewer than `n` bytes? -/
def fewerThan (n : Nat) (bytes : List Byte) : Bool :=
  match n, bytes with
  | 0, _ => false
  | _ + 1, [] => true
  | k + 1, _ :: rest => fewerThan k rest

/-- RAW after its first two bytes: `k` payload bytes and the pad byte of an odd run, which must be present and whose
value is ignored (R95, R162). -/
def decodeRaw (k : Byte) (operands : List Byte) : Decoded :=
  if fewerThan (rawTail k.toNat) operands then .truncated
  else .token (.raw (operands.take k.toNat)) (operands.drop (rawTail k.toNat))

/-- The token at the head of the bytes that are left of the stream (R91 to R98, R129 to R131). -/
def decode (bytes : List Byte) : Decoded :=
  match bytes with
  | [] => .exhausted
  | [_] => .truncated
  | b0 :: b1 :: rest =>
    match selectToken b0 b1 with
    | .lit => .token (.lit b0 b1) rest
    | .eor => .token .eor rest
    | .eoi => .token .eoi rest
    | .trn => .token .trn rest
    | .repos => decodeRepos rest
    | .raw => decodeRaw b1 rest

/-- The longest token: a raw run of 255 bytes with its pad byte (R91). -/
def maxTokenBytes : Nat := 258

/-- The header test on the whole stream: HDR when the stream has at least three bytes and begins `00 00`, else nothing
(R100, R127). -/
def decodeHeader (stream : List Byte) : Option Instr :=
  match stream with
  | b0 :: b1 :: _ :: _ => if b0 = 0x00 ∧ b1 = 0x00 then some .hdr else none
  | _ => none

/-- The code of a byte at nibble phase `nib`: bits 7 to 4 first, then bits 3 to 0 (R104, R203). -/
def decodeCode (b : Byte) (nib : Bool) : Code :=
  if nib then b.extractLsb' 0 4 else b.extractLsb' 4 4

/-- Two consecutive codes in one byte, the first in the high nibble (R104, R108). -/
def packCodes (first second : Code) : Byte :=
  first ++ second

/-- The pad byte of an odd raw run, emitted as `00` (R109). -/
def padBytes (k : Nat) : List Byte :=
  List.replicate (k % 2) 0x00

/-- The bytes of an instruction (R91 to R95, R108). A code is half a byte: it is encoded as the first code of a byte
whose second code is 0. -/
def encode (i : Instr) : List Byte :=
  match i with
  | .hdr => [0x00, 0x00]
  | .eor => [0x00, 0x00]
  | .eoi => [0x00, 0x01]
  | .trn => [0x00, 0x02]
  | .repos dx dy => [0x00, 0x03, dx, dy]
  | .raw payload => 0x00 :: BitVec.ofNat 8 payload.length :: (payload ++ padBytes payload.length)
  | .lit n colour => [n, colour]
  | .sample c => [packCodes c 0]

/-- A row of opcode_table.json over the 16-bit number `w = b0 * 256 + b1` (R97). -/
structure TableRow where
  kind : TokenKind
  pattern : BitVec 16
  mask : BitVec 16
  deriving DecidableEq, Repr

/-- The six token rows in their test order (R97). -/
def tokenTable : List TableRow :=
  [⟨.eor, 0x0000, 0xFFFF⟩, ⟨.eoi, 0x0001, 0xFFFF⟩, ⟨.trn, 0x0002, 0xFFFF⟩, ⟨.repos, 0x0003, 0xFFFF⟩,
   ⟨.raw, 0x0000, 0xFF00⟩, ⟨.lit, 0x0000, 0x0000⟩]

/-- The first row whose masked bits match (R97). -/
def firstMatch (table : List TableRow) (w : BitVec 16) : Option TokenKind :=
  (table.find? fun row => w &&& row.mask == row.pattern).map TableRow.kind

/-- The bytes of `count` 16-bit words numbered as the opcode table numbers them: the first word is the low 16 bits of
`w`, and within a word the first byte of the stream is bits 15 to 8 (R97). -/
def tableBytes (count w : Nat) : List Byte :=
  match count with
  | 0 => []
  | n + 1 => BitVec.ofNat 8 (w / 256) :: BitVec.ofNat 8 w :: tableBytes n (w / 65536)

/-- The stream bytes of an RLE row whose `nbits` bits are `w`. -/
def tableHead (nbits w : Nat) : List Byte :=
  tableBytes ((nbits + 15) / 16) (w % 2 ^ nbits)

/-- Is the row the 4-bit code? Every RLE row has at least 16 bits (R110). -/
def tableRowIsCode (nbits : Nat) : Bool :=
  nbits < 16

/-- The 4-bit code of a row whose bits are `w` (R110: `skkk`, bit 3 first). -/
def tableCode (w : Nat) : Code :=
  BitVec.ofNat 4 w

/-- The instruction the decoder reads from an instruction whose bits are `w`, numbered as opcode_table.json numbers
them, any further operand byte being zero. `0x0000` is read as the token EOR, since HDR is no token but a prefix (log entry 12). -/
def decodeTableWord (nbits w : Nat) : Option Instr :=
  if tableRowIsCode nbits then
    some (.sample (decodeCode (packCodes (tableCode w) 0) false))
  else
    match decode (tableHead nbits w ++ List.replicate maxTokenBytes 0x00) with
    | .token i _ => some i
    | .exhausted => none
    | .truncated => none

end Sys2Proof
end

