-- ==== Sys2Proof/Machine/Flags.lean ====
section
/-! DEFINITION. T_ARMED, the one condition flag of MSDEC, with its remembered position (R37, R38): what sets it, what
clears it, and what a literal run under it records. ADPU has no flag (R207). -/

namespace Sys2Proof.Machine

/-- Set T_ARMED and remember the cursor, overwriting an earlier arming (R158, R159). -/
def Rleu.arm (r : Rleu) : Rleu :=
  { r with tArmed := true, tRow := r.row, tCol := r.col }

/-- Clear T_ARMED without a record (R153, R155, R157). -/
def Rleu.disarm (r : Rleu) : Rleu :=
  { r with tArmed := false }

/-- The completion of a literal run whose new cursor stands in `r`: if T_ARMED is set, append
`(T_ROW, T_COL, COL - T_COL)` and clear it. Nothing where the append raises AllocationFailure (R151, R152). -/
def Rleu.completeLiteral (p : Params) (r : Rleu) : Option Rleu :=
  if r.tArmed then (r.trlAppend p ⟨r.tRow, r.tCol, r.col - r.tCol⟩).map Rleu.disarm
  else some r

end Sys2Proof.Machine
end

