-- ==== Sys2Proof/Machine/Token.lean ====
section
/-! DEFINITION. The meanings of the header prefix and of the six RLE tokens (R127, R150 to R164). A token is executed
inside the token step, with RSTATE = RUN (R129, R150): that test is the step's, not the meaning's (log entry 11). -/

namespace Sys2Proof.Machine

/-- HDR: skipped once, not executed as a token; it moves no cursor and ends no row (R100, R127). -/
def execHdr (s : State) : Host.Outcome State Fault Refusal :=
  .next (s.setRleu s.rleu.skipHeader)

/-- The row limit of the frame, `FRAME_Y + FRAME_H` in unbounded arithmetic (R154). -/
def Rleu.rowLimit (r : Rleu) : Nat :=
  r.frameY.toNat + r.frameH.toNat

/-- The last-row test, made on the new ROW (R134, R154). -/
def Rleu.lastRowTest (r : Rleu) : Rleu :=
  if r.row ≥ r.rowLimit then { r with rstate := .compose } else r

/-- EOR (R153, R154). -/
def execEor (s : State) : Host.Outcome State Fault Refusal :=
  let r := s.rleu
  .next (s.setRleu { r.disarm with row := r.row + 1, col := r.frameX.toNat, pos := r.pos + 2 }.lastRowTest)

/-- EOI (R155). -/
def execEoi (s : State) : Host.Outcome State Fault Refusal :=
  let r := s.rleu
  .next (s.setRleu { r.disarm with pos := r.pos + 2, rstate := .compose })

/-- TRN (R158, R159). -/
def execTrn (s : State) : Host.Outcome State Fault Refusal :=
  let r := s.rleu
  .next (s.setRleu { r.arm with pos := r.pos + 2 })

/-- REPOS (R160, R161). -/
def execRepos (dx dy : Byte) (s : State) : Host.Outcome State Fault Refusal :=
  let r := s.rleu
  if r.pos + 4 > r.inLen then tokenError s .truncatedStream
  else .next (s.setRleu { r with col := r.col + zext dx, row := r.row + zext dy, pos := r.pos + 4 })

/-- The length of a raw token of `k` payload bytes (R162). -/
def rawLength (k : Nat) : Nat :=
  2 + rawTail k

/-- RAW: TruncatedStream is tested before any pixel is written (R162, R163). -/
def execRaw (payload : List Byte) (s : State) : Host.Outcome State Fault Refusal :=
  let r := s.rleu
  if r.pos + rawLength payload.length > r.inLen then tokenError s .truncatedStream
  else
    match r.pixWriteRun r.row r.col payload with
    | none => tokenError s .writeOutOfCanvas
    | some r' =>
      .next (s.setRleu { r' with col := r.col + payload.length, pos := r.pos + rawLength payload.length })

/-- LIT: the pixels, the cursor, then the record of an armed run (R151, R152). -/
def execLit (n colour : Byte) (s : State) : Host.Outcome State Fault Refusal :=
  let r := s.rleu
  match r.pixWriteRun r.row r.col (List.replicate (zext n) colour) with
  | none => tokenError s .writeOutOfCanvas
  | some r' =>
    match Rleu.completeLiteral s.params { r' with col := r.col + zext n, pos := r.pos + 2 } with
    | none => tokenError s .allocationFailure
    | some r'' => .next (s.setRleu r'')

end Sys2Proof.Machine
end

