-- ==== Sys2Proof/Machine/Dispatch.lean ====
section
/-! DEFINITION. One arm per row of spec/opcode_table.json: the meaning of each instruction. -/

namespace Sys2Proof.Machine

open Sys2Proof

def exec (i : Instr) (s : State) : Host.Outcome State Fault Refusal :=
  match i with
  | .hdr => Sys2Proof.Machine.execHdr s
  | .eor => Sys2Proof.Machine.execEor s
  | .eoi => Sys2Proof.Machine.execEoi s
  | .trn => Sys2Proof.Machine.execTrn s
  | .repos dx dy => Sys2Proof.Machine.execRepos dx dy s
  | .raw payload => Sys2Proof.Machine.execRaw payload s
  | .lit n colour => Sys2Proof.Machine.execLit n colour s
  | .sample c => Sys2Proof.Machine.execSample c s

end Sys2Proof.Machine
end

