-- ==== Sys2Proof/Machine/Fetch.lean ====
section
/-! DEFINITION. Where the units fetch: the token at POS, never at or beyond IN_LEN (R61, R129, R136), and the code at
APOS and NIB (R203). -/

namespace Sys2Proof.Machine

/-- The bytes from POS that a token can take, none of them at or beyond IN_LEN. -/
def Rleu.remaining (r : Rleu) : List Byte :=
  Memory.slice r.inMem r.pos (min (r.inLen - r.pos) maxTokenBytes)

/-- The token fetch (R129 to R131). -/
def Rleu.fetch (r : Rleu) : Decoded :=
  decode r.remaining

/-- The code fetch (R203). -/
def Adpu.fetch (d : Adpu) : Instr :=
  .sample (decodeCode (Memory.read d.ain d.apos) d.nib)

/-- RLEU set to fetch `bytes`, with operand bytes of zero after them, next: they stand at POS, IN_LEN covers the longest
token, and the unit runs (log entry 4). -/
def Rleu.placeToken (r : Rleu) (bytes : List Byte) : Rleu :=
  { r with
    inMem := Memory.writeBytes (Memory.zeroRange r.inMem r.pos maxTokenBytes) r.pos bytes
    inLen := max r.inLen (r.pos + maxTokenBytes)
    rstate := .run }

/-- ADPU set to fetch the code `c` next: it stands in the nibble NIB selects of the byte at APOS, whose other nibble
stays (log entry 4). -/
def Adpu.placeCode (d : Adpu) (c : Code) : Adpu :=
  let b := Memory.read d.ain d.apos
  let b' := if d.nib then packCodes (decodeCode b false) c else packCodes c (decodeCode b true)
  { d with
    ain := Memory.write d.ain d.apos b'
    ainLen := max d.ainLen (d.apos + 1)
    astate := .run }

end Sys2Proof.Machine
end

