-- ==== Sys2Proof/Machine/JobControl.lean ====
section
/-! DEFINITION. The job-start step of RLEU (R120 to R128). -/

namespace Sys2Proof.Machine

/-- The effective canvas width a job start computes (R32). -/
def Rleu.jobCanvasW (r : Rleu) : Word :=
  if r.rctrl.cwSet then r.canvasW else r.frameW

/-- The effective canvas height a job start computes (R32). -/
def Rleu.jobCanvasH (r : Rleu) : Word :=
  if r.rctrl.chSet then r.canvasH else r.frameH

/-- `CW * CH` of the job that starts, in unbounded arithmetic (R11). -/
def Rleu.jobPixels (r : Rleu) : Nat :=
  r.jobCanvasW.toNat * r.jobCanvasH.toNat

/-- The geometry check: the frame leaves the canvas (R121). -/
def Rleu.geometryOverflows (r : Rleu) : Bool :=
  decide (r.frameX.toNat + r.frameW.toNat > r.jobCanvasW.toNat) ||
  decide (r.frameY.toNat + r.frameH.toNat > r.jobCanvasH.toNat)

/-- The keyframe size check: a keyframe of another size than the canvas (R122). -/
def Rleu.keySizeMismatches (r : Rleu) : Bool :=
  r.rctrl.keyPresent && decide (r.keyLen ≠ r.jobPixels)

/-- The initialisation, with ERR_CODE and the effective canvas (R32, R124, R125). -/
def Rleu.jobInit (r : Rleu) : Rleu :=
  { r with
    cwEff := r.jobCanvasW
    chEff := r.jobCanvasH
    errCode := .none
    pix := Memory.zeroBelow r.pix r.jobPixels
    trl := []
    tArmed := false
    row := r.frameY.toNat
    col := r.frameX.toNat
    pos := 0 }

/-- The header prefix, where the stream begins with it (R100, R127). -/
def Rleu.header (r : Rleu) : Option Instr :=
  decodeHeader (Memory.slice r.inMem 0 (min r.inLen 3))

/-- The header test: skip the header where there is one (R127). -/
def Rleu.headerTest (r : Rleu) : Rleu :=
  match r.header with
  | some _ => r.skipHeader
  | none => r

/-- What a job start does once its checks have passed: initialisation, short-stream rule, header test, zero-height test
(R124 to R128). -/
def Rleu.jobBegin (r : Rleu) : Rleu :=
  if r.inLen ≤ 2 then { r.jobInit with rstate := .done }
  else if r.frameH = 0 then { r.jobInit.headerTest with rstate := .compose }
  else { r.jobInit.headerTest with rstate := .run }

/-- The job-start step in full, in the order of R125. -/
def Rleu.jobStart (p : Params) (r : Rleu) : Rleu :=
  if r.geometryOverflows then Rleu.jobError p r .geometryOverflow
  else if r.keySizeMismatches then Rleu.jobError p r .sizeMismatch
  else if !withinCap p.pixCap r.jobPixels then Rleu.jobError p r .allocationFailure
  else r.jobBegin

end Sys2Proof.Machine
end

