-- ==== Sys2Proof/Machine/HostPort.lean ====
section
/-! DEFINITION. What HOST can do (R264 to R272): its moves, which take a step, and its reads, which change nothing (R72)
and are functions of the state. -/

namespace Sys2Proof.Machine

/-- RSTATE in which HOST may write RLEU's parameters and memories and start a job (R30, R69, R120). -/
def Rleu.accepts (r : Rleu) : Bool :=
  match r.rstate with
  | .idle => true
  | .run => false
  | .compose => false
  | .done => true
  | .err => true

/-- ASTATE in which HOST may write ADPU's parameter and memory and start a job (R30, R69, R200). -/
def Adpu.accepts (d : Adpu) : Bool :=
  match d.astate with
  | .idle => true
  | .run => false
  | .done => true
  | .err => true

/-- Has HOST written every parameter register that a job with these valid bits reads (R264)? -/
def Rleu.parametersWritten (r : Rleu) : Bool :=
  r.written.frameW && r.written.frameH && r.written.inLen &&
  (!r.rctrl.cwSet || r.written.canvasW) && (!r.rctrl.chSet || r.written.canvasH) &&
  (!r.rctrl.keyPresent || r.written.keyLen)

/-- Does a length register hold the value (R12, R27)? -/
def lengthFits (p : Params) (v : Nat) : Bool :=
  v < 2 ^ p.lenBits

/-- A write of RLEU's parameter registers (R30, R268). -/
def writeRleuParameter (s : State) (r : Rleu) : Host.Outcome State Fault Refusal :=
  if s.rleu.accepts then .next (s.setRleu r) else .refused .parameterWriteWhileRunning

/-- A write of one of RLEU's length registers (log entry 14). -/
def writeRleuLength (s : State) (v : Nat) (r : Rleu) : Host.Outcome State Fault Refusal :=
  if lengthFits s.params v then writeRleuParameter s r else .refused .lengthTooWide

/-- A write of a byte of RLEU's input memories (R69, R268). -/
def writeRleuMemory (s : State) (r : Rleu) : Host.Outcome State Fault Refusal :=
  if s.rleu.accepts then .next (s.setRleu r) else .refused .memoryWriteWhileRunning

/-- RLE_START (R120, R269). The spec itself refuses a start whose job would read a parameter register never written
since RESET (R53, R264, U5). -/
def rleStart (s : State) : Host.Outcome State Fault Refusal :=
  if !s.rleu.accepts then .refused .startWhileRunning
  else if !s.rleu.parametersWritten then .refused .parameterNeverWritten
  else .next (s.setRleu (Rleu.jobStart s.params s.rleu))

/-- ADP_START (R200, R269). The spec itself refuses a start with AIN_LEN never written since RESET (R53, R265, U5). -/
def adpStart (s : State) : Host.Outcome State Fault Refusal :=
  if !s.adpu.accepts then .refused .startWhileRunning
  else if !s.adpu.ainLenWritten then .refused .parameterNeverWritten
  else .next (s.setAdpu (Adpu.jobStart s.params s.adpu))

/-- RESET, at any time (R260, R266, R272). -/
def resetMove (s : State) : Host.Outcome State Fault Refusal :=
  .next ((s.setRleu (Rleu.afterReset s.params s.rleu)).setAdpu (Adpu.afterReset s.params s.adpu))

/-- The effect of one HOST move. DESIGN CHOICE (log entry 21): a byte of IN, KEY or AIN is written at any index, also at
one that no value of the length register makes valid. -/
def hostMove (m : HostMove) (s : State) : Host.Outcome State Fault Refusal :=
  let r := s.rleu
  let d := s.adpu
  match m with
  | .writeFrameW v => writeRleuParameter s { r with frameW := v, written := { r.written with frameW := true } }
  | .writeFrameH v => writeRleuParameter s { r with frameH := v, written := { r.written with frameH := true } }
  | .writeCanvasW v => writeRleuParameter s { r with canvasW := v, written := { r.written with canvasW := true } }
  | .writeCanvasH v => writeRleuParameter s { r with canvasH := v, written := { r.written with canvasH := true } }
  | .writeFrameX v => writeRleuParameter s { r with frameX := v }
  | .writeFrameY v => writeRleuParameter s { r with frameY := v }
  | .writeInLen v => writeRleuLength s v { r with inLen := v, written := { r.written with inLen := true } }
  | .writeKeyLen v => writeRleuLength s v { r with keyLen := v, written := { r.written with keyLen := true } }
  | .writeRctrl v => writeRleuParameter s { r with rctrl := v }
  | .writeIn a v => writeRleuMemory s { r with inMem := Memory.write r.inMem a v }
  | .writeKey a v => writeRleuMemory s { r with keyMem := Memory.write r.keyMem a v }
  | .rleStart => rleStart s
  | .writeAinLen v =>
    if !lengthFits s.params v then .refused .lengthTooWide
    else if d.accepts then .next (s.setAdpu { d with ainLen := v, ainLenWritten := true })
    else .refused .parameterWriteWhileRunning
  | .writeAin a v =>
    if d.accepts then .next (s.setAdpu { d with ain := Memory.write d.ain a v })
    else .refused .memoryWriteWhileRunning
  | .adpStart => adpStart s
  | .reset => resetMove s

/-! ### Reads -/

/-- The registers HOST may read, at any time (R20, R266). -/
inductive Reg where
  | frameW | frameH | canvasW | canvasH | frameX | frameY | inLen | keyLen | rctrl
  | rstate | errCode | errPos | errRow | errCol
  | cwEff | chEff | pos | row | col | tArmed | tRow | tCol | trlCount
  | ainLen | astate | aerrCode | predictor | stepIndex | apos | nib | outCount
  deriving DecidableEq, Repr

/-- The encodings of RSTATE (R31). -/
def rstateNumber (x : RState) : Nat :=
  match x with
  | .idle => 0
  | .run => 1
  | .compose => 2
  | .done => 3
  | .err => 4

/-- The encodings of ASTATE; the value 2 is not used (R46). -/
def astateNumber (x : AState) : Nat :=
  match x with
  | .idle => 0
  | .run => 1
  | .done => 3
  | .err => 4

/-- The error codes (R231). -/
def errNumber (x : ErrCode) : Nat :=
  match x with
  | .none => 0
  | .truncatedStream => 1
  | .geometryOverflow => 2
  | .sizeMismatch => 3
  | .allocationFailure => 4
  | .writeOutOfCanvas => 5

/-- RCTRL as a number: KEY_PRESENT is bit 0, CW_SET bit 1, CH_SET bit 2 (R29). -/
def rctrlNumber (x : Rctrl) : Nat :=
  x.keyPresent.toNat + 2 * x.cwSet.toNat + 4 * x.chSet.toNat

/-- A HOST read of a register, as a number (R266). -/
def readReg (x : Reg) (s : State) : Int :=
  match x with
  | .frameW => s.rleu.frameW.toNat
  | .frameH => s.rleu.frameH.toNat
  | .canvasW => s.rleu.canvasW.toNat
  | .canvasH => s.rleu.canvasH.toNat
  | .frameX => s.rleu.frameX.toNat
  | .frameY => s.rleu.frameY.toNat
  | .inLen => s.rleu.inLen
  | .keyLen => s.rleu.keyLen
  | .rctrl => rctrlNumber s.rleu.rctrl
  | .rstate => rstateNumber s.rleu.rstate
  | .errCode => errNumber s.rleu.errCode
  | .errPos => s.rleu.errPos
  | .errRow => s.rleu.errRow
  | .errCol => s.rleu.errCol
  | .cwEff => s.rleu.cw
  | .chEff => s.rleu.ch
  | .pos => s.rleu.pos
  | .row => s.rleu.row
  | .col => s.rleu.col
  | .tArmed => s.rleu.tArmed.toNat
  | .tRow => s.rleu.tRow
  | .tCol => s.rleu.tCol
  | .trlCount => s.rleu.trlCount
  | .ainLen => s.adpu.ainLen
  | .astate => astateNumber s.adpu.astate
  | .aerrCode => errNumber s.adpu.aerrCode
  | .predictor => s.adpu.predictor
  | .stepIndex => s.adpu.stepIndex.val
  | .apos => s.adpu.apos
  | .nib => s.adpu.nib.toNat
  | .outCount => s.adpu.outCount

/-- A HOST read of byte `a` of IN while RLEU is in IDLE, DONE or ERR (R69, R244), at any index (log entry 21). -/
def readIn (a : Nat) (s : State) : Host.Outcome Byte Fault Refusal :=
  if s.rleu.accepts then .next (Memory.read s.rleu.inMem a) else .refused .memoryReadWhileRunning

/-- A HOST read of byte `a` of KEY while RLEU is in IDLE, DONE or ERR (R69, R244), at any index (log entry 21). -/
def readKey (a : Nat) (s : State) : Host.Outcome Byte Fault Refusal :=
  if s.rleu.accepts then .next (Memory.read s.rleu.keyMem a) else .refused .memoryReadWhileRunning

/-- A HOST read of byte `a` of AIN while ADPU is in IDLE, DONE or ERR (R69, R244), at any index (log entry 21). -/
def readAin (a : Nat) (s : State) : Host.Outcome Byte Fault Refusal :=
  if s.adpu.accepts then .next (Memory.read s.adpu.ain a) else .refused .memoryReadWhileRunning

/-- A HOST read of the pixel at index `a`, in DONE only (R63, R69, R270; log entry 16). -/
def readPix (a : Nat) (s : State) : Host.Outcome Byte Fault Refusal :=
  if s.rleu.rstate ≠ .done then .refused .outputReadBeforeDone
  else if a < s.rleu.cw * s.rleu.ch then .next (Memory.read s.rleu.pix a)
  else .fault .noSuchElement

/-- A HOST read of record `j` of TRL, in DONE only (R64, R69, R270; log entry 16). -/
def readTrl (j : Nat) (s : State) : Host.Outcome TrlRecord Fault Refusal :=
  if s.rleu.rstate ≠ .done then .refused .outputReadBeforeDone
  else
    match s.rleu.trl[j]? with
    | some t => .next t
    | none => .fault .noSuchElement

/-- A HOST read of sample `i` of PCM, in DONE only (R68, R69, R270; log entry 16). -/
def readPcm (i : Nat) (s : State) : Host.Outcome (BitVec 16) Fault Refusal :=
  if s.adpu.astate ≠ .done then .refused .outputReadBeforeDone
  else if i < s.adpu.outCount then .next (Memory.read16 s.adpu.pcm i)
  else .fault .noSuchElement

end Sys2Proof.Machine
end

