-- ==== Sys2Proof/Machine/Step.lean ====
section
/-! DEFINITION. One step of MSDEC: a turn of RLEU, a turn of ADPU, or one HOST move (R5, R9; log entry 3). -/

namespace Sys2Proof.Machine

/-- The token step (R129): the decoded token's meaning, the end of the pass at exhaustion (R130), or TruncatedStream
(R131, R232). -/
def tokenStep (s : State) : Host.Outcome State Fault Refusal :=
  match s.rleu.fetch with
  | .token i _ => exec i s
  | .exhausted => .next (s.setRleu s.rleu.endPass)
  | .truncated => tokenError s .truncatedStream

/-- RLEU's turn: one token in RUN, the composite step in COMPOSE, nothing otherwise (R9, R31, R240). -/
def rleuTurn (s : State) : Host.Outcome State Fault Refusal :=
  match s.rleu.rstate with
  | .run => tokenStep s
  | .compose => .next (s.setRleu s.rleu.composite)
  | .idle => .next s
  | .done => .next s
  | .err => .next s

/-- ADPU's turn: one SAMPLE or the finishing step in RUN, nothing otherwise (R9, R46, R202). -/
def adpuTurn (s : State) : Host.Outcome State Fault Refusal :=
  match s.adpu.astate with
  | .run => if s.adpu.apos ≥ s.adpu.ainLen then .next (s.setAdpu s.adpu.finish) else exec s.adpu.fetch s
  | .idle => .next s
  | .done => .next s
  | .err => .next s

/-- One step: the next event if one is pending; with none pending, RLEU if it runs, else ADPU if it runs, else nothing
(log entry 3). -/
def step (s : State) : Host.Outcome State Fault Refusal :=
  match s.pending with
  | .rleu :: rest => rleuTurn (s.setPending rest)
  | .adpu :: rest => adpuTurn (s.setPending rest)
  | .host m :: rest => hostMove m (s.setPending rest)
  | [] => if s.rleu.accepts then adpuTurn s else rleuTurn s

/-- `s` with the instruction whose table bits are `w` standing where a unit fetches next, that unit running and taking
the next turn (log entry 4). -/
def State.withFetchWord (s : State) (nbits w : Nat) : State :=
  if tableRowIsCode nbits then
    (s.setAdpu (s.adpu.placeCode (tableCode w))).setPending (.adpu :: s.pending)
  else
    (s.setRleu (s.rleu.placeToken (tableHead nbits w))).setPending (.rleu :: s.pending)

end Sys2Proof.Machine
end

