-- ==== Sys2Proof/Safety.lean ====
section
/-! DEFINITION. What claims about MSDEC are stated in: the invariants of the two units (R42, R52), runs of a unit's turns
and of interleaved turns, the form of an error entry, and when two jobs are the same. -/

namespace Sys2Proof.Machine

/-! ### Invariants -/

/-- Every record of TRL is a non-empty span of one row inside the canvas (R42 (f), R64, R184). -/
def Rleu.RecordsInCanvas (r : Rleu) : Prop :=
  ∀ t ∈ r.trl, t.row < r.ch ∧ t.col < r.cw ∧ 1 ≤ t.len ∧ t.col + t.len ≤ r.cw

/-- Position `(row, col)` is at or after the end of record `t` in reading order. -/
def TrlRecord.EndsBefore (t : TrlRecord) (row col : Nat) : Prop :=
  t.row < row ∨ (t.row = row ∧ t.col + t.len ≤ col)

/-- The records lie in reading order and never overlap (R64, R182). -/
def Rleu.RecordsApart (r : Rleu) : Prop :=
  r.trl.Pairwise fun t u => TrlRecord.EndsBefore t u.row u.col

/-- While tokens are consumed, every record ends at or before the cursor, and at or before the position remembered by an
armed flag (R42 (d) and (e)). -/
def Rleu.RecordsBehindCursor (r : Rleu) : Prop :=
  r.RecordsApart ∧
  ∀ t ∈ r.trl, TrlRecord.EndsBefore t r.row r.col ∧ (r.tArmed = true → TrlRecord.EndsBefore t r.tRow r.tCol)

/-- What the job-start checks established for the job that is under way (R32, R121 to R123). -/
structure Rleu.JobInv (p : Params) (r : Rleu) : Prop where
  width : r.cwEff = r.jobCanvasW
  height : r.chEff = r.jobCanvasH
  geometry : r.geometryOverflows = false
  keySize : r.keySizeMismatches = false
  capacity : withinCap p.pixCap (r.cw * r.ch) = true

/-- The read position and the cursor while tokens are consumed (R34, R35, R42 (a), (b), (c), (e)). -/
structure Rleu.CursorInv (r : Rleu) : Prop where
  posEven : r.pos % 2 = 0
  posBound : r.pos ≤ r.inLen
  rowBound : r.frameY.toNat ≤ r.row
  armedRow : r.tArmed = true → r.tRow ≤ r.row
  armedCol : r.tArmed = true → r.tCol ≤ r.col

/-- The invariant of RLEU. -/
structure Rleu.Inv (p : Params) (r : Rleu) : Prop where
  inWf : Memory.wf r.inMem
  keyWf : Memory.wf r.keyMem
  pixWf : Memory.wf r.pix
  inLenFits : r.inLen < 2 ^ p.lenBits
  keyLenFits : r.keyLen < 2 ^ p.lenBits
  trlFits : withinCap p.trlCap r.trlCount = true
  pixFits : ∀ c ∈ r.pix, withinCap p.pixCap (c.1 + 1) = true
  errIff : r.errCode = .none ↔ r.rstate ≠ .err
  job : r.rstate = .run ∨ r.rstate = .compose → r.JobInv p
  cursor : r.rstate = .run → r.CursorInv
  records : r.rstate = .run ∨ r.rstate = .compose ∨ r.rstate = .done → r.RecordsInCanvas
  disarmed : r.rstate = .idle ∨ r.rstate = .compose ∨ r.rstate = .done → r.tArmed = false
  idleEmpty : r.rstate = .idle → r.trl = []

/-- The invariant of ADPU (R44, R50, R51, R52). R52 bounds PREDICTOR in RUN; that it is within 16 bits in every state
rests on its value after reset, the model's choice (log entries 1 and 9). -/
structure Adpu.Inv (p : Params) (d : Adpu) : Prop where
  ainWf : Memory.wf d.ain
  pcmWf : Memory.wf d.pcm
  ainLenFits : d.ainLen < 2 ^ p.lenBits
  outCountFits : d.outCount < 2 ^ (p.lenBits + 2)
  pcmFits : ∀ c ∈ d.pcm, withinCap p.pcmCap (c.1 / 2 + 1) = true
  predictorLow : -32768 ≤ d.predictor
  predictorHigh : d.predictor ≤ 32767
  errIff : d.aerrCode = if d.astate = .err then .allocationFailure else .none
  capacity : d.astate = .run → withinCap p.pcmCap (2 * d.ainLen) = true
  count : d.astate = .run ∨ d.astate = .done → d.outCount = 2 * d.apos + d.nib.toNat
  aposBound : d.astate = .run → d.apos ≤ d.ainLen
  lowNibble : d.astate = .run → d.nib = true → d.apos < d.ainLen
  doneWhole : d.astate = .done → d.nib = false

/-- The invariant of MSDEC: a length has at least one bit (R12), and both units meet theirs. -/
structure State.Inv (s : State) : Prop where
  lenBits : 1 ≤ s.params.lenBits
  rleu : s.rleu.Inv s.params
  adpu : s.adpu.Inv s.params

/-- While tokens are consumed, every pixel at or after the cursor in reading order is still zero, so no pixel is written
twice (R42 (d), R63, R130). -/
def Rleu.AheadIsZero (r : Rleu) : Prop :=
  ∀ row col, row < r.ch → col < r.cw → r.row < row ∨ (r.row = row ∧ r.col ≤ col) →
    Memory.read r.pix (pixIndex r.cw row col) = 0x00

/-- What the token pass keeps: while tokens are consumed the records lie behind the cursor and the pixels ahead of it are
zero; once the pass is over the records never overlap (R42 (d), R63, R64, R182). -/
structure Rleu.PassInv (r : Rleu) : Prop where
  behind : r.rstate = .run → r.RecordsBehindCursor
  ahead : r.rstate = .run → r.AheadIsZero
  apart : r.rstate = .compose ∨ r.rstate = .done → r.RecordsApart

/-! ### Runs of turns -/

/-- `n` turns of one unit, stopping at the first that does not give a next state. -/
def turns (turn : State → Host.Outcome State Fault Refusal) (n : Nat) (s : State) : Host.Outcome State Fault Refusal :=
  match n with
  | 0 => .next s
  | k + 1 =>
    match turn s with
    | .next t => turns turn k t
    | .fault f => .fault f
    | .refused f => .refused f

/-- The two units (R9). -/
inductive UnitName where
  | rleu | adpu
  deriving DecidableEq, Repr

/-- The turns of an interleaving, in order (R80). -/
def interleave (order : List UnitName) (s : State) : Host.Outcome State Fault Refusal :=
  match order with
  | [] => .next s
  | u :: rest =>
    match (match u with
      | .rleu => rleuTurn s
      | .adpu => adpuTurn s) with
    | .next t => interleave rest t
    | .fault f => .fault f
    | .refused f => .refused f

/-! ### Error entry -/

/-- `t` is `s` after `raise e(pos, row, col)` in RLEU: no register but the error registers and RSTATE has changed, and
nothing is said of PIX, TRL and TRL_COUNT (R150, R236, R237). -/
def RaisedTo (s t : State) (e : ErrCode) (pos row col : Nat) : Prop :=
  t = s.setRleu { s.rleu with
    errCode := e, errPos := pos, errRow := row, errCol := col, rstate := .err,
    pix := t.rleu.pix, trl := t.rleu.trl, draws := t.rleu.draws }

/-- The step `o` of state `s` is the error entry of a token that starts at the cursor of `s` (R41, R129). -/
def RaisesAtToken (s : State) (o : Host.Outcome State Fault Refusal) (e : ErrCode) : Prop :=
  ∃ t, o = .next t ∧ RaisedTo s t e s.rleu.pos s.rleu.row s.rleu.col

/-! ### Two jobs that are the same -/

/-- The same parameter registers and the same input memories (R263). -/
structure Rleu.SameInputs (r r' : Rleu) : Prop where
  frameW : r.frameW = r'.frameW
  frameH : r.frameH = r'.frameH
  canvasW : r.canvasW = r'.canvasW
  canvasH : r.canvasH = r'.canvasH
  frameX : r.frameX = r'.frameX
  frameY : r.frameY = r'.frameY
  inLen : r.inLen = r'.inLen
  keyLen : r.keyLen = r'.keyLen
  rctrl : r.rctrl = r'.rctrl
  inMem : r.inMem = r'.inMem
  keyMem : r.keyMem = r'.keyMem

/-- The same job at the same point: everything a later step of it or HOST after it may read is the same (R263). The
remembered position counts only while the flag is armed, the error context only in ERR, and the outputs only outside
ERR (R38, R41, R237). -/
structure Rleu.SameJob (r r' : Rleu) : Prop where
  inputs : r.SameInputs r'
  rstate : r.rstate = r'.rstate
  errCode : r.errCode = r'.errCode
  context : r.rstate = .err → r.errPos = r'.errPos ∧ r.errRow = r'.errRow ∧ r.errCol = r'.errCol
  canvas : r.rstate ≠ .err → r.cwEff = r'.cwEff ∧ r.chEff = r'.chEff
  cursor : r.rstate ≠ .err → r.pos = r'.pos ∧ r.row = r'.row ∧ r.col = r'.col
  armed : r.rstate ≠ .err → r.tArmed = r'.tArmed
  remembered : r.rstate ≠ .err → r.tArmed = true → r.tRow = r'.tRow ∧ r.tCol = r'.tCol
  trl : r.rstate ≠ .err → r.trl = r'.trl
  pix : r.rstate ≠ .err → ∀ a, a < r.cw * r.ch → Memory.read r.pix a = Memory.read r'.pix a

/-- The same but for what R237 leaves at any value: PIX, TRL and TRL_COUNT in ERR. The draw counters may differ, so
nothing rests on the model's own way of drawing free values (log entry 8). -/
structure Rleu.SameButFree (r r' : Rleu) : Prop where
  registers : { r' with pix := r.pix, trl := r.trl, draws := r.draws } = r
  outputs : r.rstate ≠ .err → r'.pix = r.pix ∧ r'.trl = r.trl

/-- `r'` runs the job of `r` on the same stream with the two header bytes before it (R127): the same but for the stream,
its length, positions in it, and what an error leaves at any value. -/
structure Rleu.WithHeader (r r' : Rleu) : Prop where
  inLen : r'.inLen = r.inLen + 2
  stream : ∀ a, Memory.read r'.inMem (a + 2) = Memory.read r.inMem a
  pos : r.rstate = .run ∨ r.rstate = .compose ∨ r.rstate = .done → r'.pos = r.pos + 2
  /-- The errors that only a token raises; AllocationFailure may be the job start's, whose context is 0 in both. -/
  errPos : r.rstate = .err → r.errCode = .truncatedStream ∨ r.errCode = .writeOutOfCanvas →
    r'.pos = r.pos + 2 ∧ r'.errPos = r.errPos + 2
  rest : r.SameButFree { r' with inMem := r.inMem, inLen := r.inLen, pos := r.pos, errPos := r.errPos }

/-- The same job of ADPU at the same point: AIN_LEN and AIN, the state and error registers and, outside ERR, the working
registers and the samples written so far (R237, R263). -/
structure Adpu.SameJob (d d' : Adpu) : Prop where
  ainLen : d.ainLen = d'.ainLen
  ain : d.ain = d'.ain
  astate : d.astate = d'.astate
  aerrCode : d.aerrCode = d'.aerrCode
  state : d.astate ≠ .err → d.predictor = d'.predictor ∧ d.stepIndex = d'.stepIndex
  position : d.astate ≠ .err → d.apos = d'.apos ∧ d.nib = d'.nib
  outCount : d.astate ≠ .err → d.outCount = d'.outCount
  pcm : d.astate ≠ .err → ∀ j, j < d.outCount → Memory.read16 d.pcm j = Memory.read16 d'.pcm j

end Sys2Proof.Machine
end

