-- ==== Sys2Proof/WellFormed.lean ====
section
/-! DEFINITION. Which terms of Instr an encoding exists for (R91, R92, R95). -/

namespace Sys2Proof

/-- LIT has a count of 1 to 255 (R92) and RAW a payload of 4 to 255 bytes (R95); every other operand is any value of its
width. -/
def Instr.wellFormed : Instr → Bool
  | .hdr => true
  | .eor => true
  | .eoi => true
  | .trn => true
  | .repos _ _ => true
  | .raw payload => decide (4 ≤ payload.length) && decide (payload.length ≤ 255)
  | .lit n _ => n != 0
  | .sample _ => true

end Sys2Proof
end

