-- ==== Sys2Proof/Certificates/Slice0/Obligations.lean ====
section
/-! DEFINITION. The statements about MSDEC, each formalising rules of spec/ or derived from the sections it names. No
statement rests on a free value or on the value of a draw counter. -/

open Sys2Proof Sys2Proof.Machine

/-! ### Decoding and encoding -/

/-- One word of each family, written out from R91 to R95, R104, R105 and R108, decodes to what it stands for. -/
def Obligations.WordsFromTheSpecDecode : Prop :=
  decode [0x05, 0x2A, 0x00, 0x00] = .token (.lit 5 0x2A) [0x00, 0x00] ∧
  decode [0x00, 0x00, 0x01] = .token .eor [0x01] ∧
  decode [0x00, 0x01] = .token .eoi [] ∧
  decode [0x00, 0x02, 0x02] = .token .trn [0x02] ∧
  decode [0x00, 0x03, 0x02, 0xFF] = .token (.repos 2 255) [] ∧
  decode [0x00, 0x05, 1, 2, 3, 4, 5, 0xEE, 9] = .token (.raw [1, 2, 3, 4, 5]) [9] ∧
  decodeHeader [0x00, 0x00, 0x05] = some .hdr ∧
  decodeCode 0x7F false = 0x7 ∧ decodeCode 0x7F true = 0xF

/-- Decoding gives back what was encoded, with every operand at every value the encoding admits: a token before any
further bytes, the header before at least one, a code in either nibble (R90 to R95, R100, R104, R109). -/
def Obligations.DecodeOfEncode : Prop :=
  (∀ i rest, i.wellFormed = true → i.isToken = true → decode (encode i ++ rest) = .token i rest) ∧
  (∀ rest, rest ≠ [] → decodeHeader (encode .hdr ++ rest) = some .hdr) ∧
  (∀ c c' : Code, decodeCode (packCodes c c') false = c ∧ decodeCode (packCodes c c') true = c')

/-- The other direction: what decodes to a token begins with that token's encoding, byte for byte but for the pad byte
of an odd raw run, and what is left is the rest of the bytes (R91, R95, R98). -/
def Obligations.DecodedBytesAreTheEncoding : Prop :=
  ∀ bytes i rest, decode bytes = .token i rest →
    i.wellFormed = true ∧ i.isToken = true ∧ i.lengthBytes ≤ bytes.length ∧ bytes.drop i.lengthBytes = rest ∧
    (encode i).length = i.lengthBytes ∧
    ∀ j, j < i.lengthBytes → (∀ payload, i = .raw payload → j < 2 + payload.length) → bytes[j]? = (encode i)[j]?

/-- The six rows of the opcode table, tested in their order, select for every pair of first bytes the token the opcode
map gives (R96, R97). -/
def Obligations.TableRowsAgreeWithTheOpcodeMap : Prop :=
  ∀ b0 b1 : Byte, firstMatch tokenTable (b0 ++ b1) = some (selectToken b0 b1)

/-- The pad byte of an odd raw run is ignored: every value decodes the same (R95, R102). -/
def Obligations.PadByteIsIgnored : Prop :=
  ∀ (k : Byte) (payload rest : List Byte) (pad pad' : Byte), 4 ≤ k.toNat → k.toNat % 2 = 1 → payload.length = k.toNat →
    decode (0x00 :: k :: payload ++ pad :: rest) = decode (0x00 :: k :: payload ++ pad' :: rest) ∧
    decode (0x00 :: k :: payload ++ pad :: rest) = .token (.raw payload) rest

/-! ### The step and the instruction -/

/-- On RLEU's turn in RUN, a token that the fetch decodes is executed: the step is exec of it, on the state from which
the turn has been taken off the pending events (R129). Where no event is pending, a running RLEU takes the turn (the
model's choice, log entry 3). -/
def Obligations.StepRunsTheDecodedToken : Prop :=
  ∀ (s : State) (i : Instr) (tail : List Byte) (events : List Event),
    s.rleu.rstate = .run → s.rleu.fetch = .token i tail →
    i.wellFormed = true ∧ i.isToken = true ∧
    (s.pending = .rleu :: events → step s = exec i (s.setPending events)) ∧
    (s.pending = [] → step s = exec i s)

/-- On ADPU's turn in RUN with a byte left, the code that APOS and NIB select is decoded: the step is exec of SAMPLE
(R202, R203). Where no event is pending, ADPU takes the turn if RLEU does not run (the model's choice, log entry 3). -/
def Obligations.StepRunsTheFetchedCode : Prop :=
  ∀ (s : State) (events : List Event), s.adpu.astate = .run → s.adpu.apos < s.adpu.ainLen →
    let b := Memory.read s.adpu.ain s.adpu.apos
    let c : Code := if s.adpu.nib then b.extractLsb' 0 4 else b.extractLsb' 4 4
    (s.pending = .adpu :: events → step s = exec (.sample c) (s.setPending events)) ∧
    (s.pending = [] → s.rleu.rstate ≠ .run → s.rleu.rstate ≠ .compose → step s = exec (.sample c) s)

/-- The token fetch reads exactly the bytes of IN from POS: what it decodes is the token whose encoding stands there, all
of it below IN_LEN, the pad byte of an odd raw run being any byte; and a whole token standing there is decoded (R91,
R129, R162). -/
def Obligations.FetchReadsTheStreamAtPos : Prop :=
  (∀ (r : Rleu) (i : Instr) (tail : List Byte), r.fetch = .token i tail →
    r.pos + i.lengthBytes ≤ r.inLen ∧
    ∀ j, j < i.lengthBytes → (∀ payload, i = .raw payload → j < 2 + payload.length) →
      (encode i)[j]? = some (Memory.read r.inMem (r.pos + j))) ∧
  (∀ (r : Rleu) (i : Instr), i.wellFormed = true → i.isToken = true → r.pos + i.lengthBytes ≤ r.inLen →
    (∀ j, j < i.lengthBytes → (∀ payload, i = .raw payload → j < 2 + payload.length) →
      (encode i)[j]? = some (Memory.read r.inMem (r.pos + j))) →
    ∃ tail, r.fetch = .token i tail)

/-- Input exhaustion at a token boundary ends the token pass as EOI does, without moving POS (R130). -/
def Obligations.ExhaustionEndsThePass : Prop :=
  ∀ s : State, s.rleu.rstate = .run → s.rleu.inLen ≤ s.rleu.pos →
    rleuTurn s = .next (s.setRleu { s.rleu with tArmed := false, rstate := .compose })

/-- A token whose second byte is missing raises TruncatedStream (R131). -/
def Obligations.MissingSecondByteIsTruncated : Prop :=
  ∀ s : State, s.rleu.rstate = .run → s.rleu.pos + 1 = s.rleu.inLen →
    RaisesAtToken s (rleuTurn s) .truncatedStream

/-- A fetched token whose operand bytes are not all below IN_LEN raises TruncatedStream in the token step (R160, R162,
R232). -/
def Obligations.MissingOperandByteIsTruncated : Prop :=
  ∀ s : State, s.rleu.rstate = .run → s.rleu.pos + 1 < s.rleu.inLen → Memory.read s.rleu.inMem s.rleu.pos = 0x00 →
    ((Memory.read s.rleu.inMem (s.rleu.pos + 1) = 0x03 ∧ s.rleu.pos + 4 > s.rleu.inLen) ∨
     (∃ k : Nat, k = (Memory.read s.rleu.inMem (s.rleu.pos + 1)).toNat ∧ 4 ≤ k ∧
       s.rleu.pos + (2 + k + k % 2) > s.rleu.inLen)) →
    RaisesAtToken s (rleuTurn s) .truncatedStream

/-! ### The tokens -/

/-- HDR is skipped: POS becomes 2 and nothing else changes; and a job start whose stream of at least three bytes begins
`00 00` leaves POS = 2, one whose stream does not leaves POS = 0, with the cursor at the frame's top left either way
(R127). -/
def Obligations.HeaderIsSkipped : Prop :=
  (∀ s : State, exec .hdr s = .next (s.setRleu { s.rleu with pos := 2 })) ∧
  (∀ (p : Params) (r : Rleu), r.geometryOverflows = false → r.keySizeMismatches = false →
    withinCap p.pixCap r.jobPixels = true → 3 ≤ r.inLen →
    (Rleu.jobStart p r).pos =
      (if Memory.read r.inMem 0 = 0x00 ∧ Memory.read r.inMem 1 = 0x00 then 2 else 0) ∧
    (Rleu.jobStart p r).row = r.frameY.toNat ∧ (Rleu.jobStart p r).col = r.frameX.toNat)

/-- EOR: the next row, the frame's left edge, T_ARMED clear, POS + 2, and the end of the pass exactly if the new ROW has
reached FRAME_Y + FRAME_H; nothing else changes (R153, R154). -/
def Obligations.EorMovesToTheNextRow : Prop :=
  ∀ s : State, exec .eor s = .next (s.setRleu { s.rleu with
    row := s.rleu.row + 1, col := s.rleu.frameX.toNat, tArmed := false, pos := s.rleu.pos + 2,
    rstate := if s.rleu.row + 1 ≥ s.rleu.frameY.toNat + s.rleu.frameH.toNat then .compose else s.rleu.rstate })

/-- EOI: T_ARMED clear, POS + 2, the end of the pass; nothing else changes (R155). -/
def Obligations.EoiEndsThePass : Prop :=
  ∀ s : State, exec .eoi s = .next (s.setRleu { s.rleu with
    tArmed := false, pos := s.rleu.pos + 2, rstate := .compose })

/-- TRN: T_ARMED set, the cursor remembered whether or not the flag was set before, POS + 2; nothing else changes
(R158, R159). -/
def Obligations.TrnArmsTheFlag : Prop :=
  ∀ s : State, exec .trn s = .next (s.setRleu { s.rleu with
    tArmed := true, tRow := s.rleu.row, tCol := s.rleu.col, pos := s.rleu.pos + 2 })

/-- REPOS: both deltas are unsigned additions, POS + 4; nothing else changes, T_ARMED and the remembered position among
it (R160, R161). A missing operand byte raises TruncatedStream instead. -/
def Obligations.ReposMovesTheCursor : Prop :=
  ∀ (s : State) (dx dy : Byte),
    (s.rleu.pos + 4 ≤ s.rleu.inLen → exec (.repos dx dy) s = .next (s.setRleu { s.rleu with
      col := s.rleu.col + dx.toNat, row := s.rleu.row + dy.toNat, pos := s.rleu.pos + 4 })) ∧
    (s.rleu.pos + 4 > s.rleu.inLen → RaisesAtToken s (exec (.repos dx dy) s) .truncatedStream)

/-- RAW inside the canvas: the payload's bytes become the pixels at the cursor, COL + k, POS + 2 + k + (k mod 2); no
other pixel and no other register changes, T_ARMED and the remembered position among them (R162, R163). -/
def Obligations.RawCopiesThePayload : Prop :=
  ∀ (s : State) (payload : List Byte),
    s.rleu.pos + (2 + payload.length + payload.length % 2) ≤ s.rleu.inLen →
    s.rleu.row < s.rleu.ch → s.rleu.col + payload.length ≤ s.rleu.cw →
    ∃ pix, exec (.raw payload) s = .next (s.setRleu { s.rleu with
        pix := pix, col := s.rleu.col + payload.length,
        pos := s.rleu.pos + (2 + payload.length + payload.length % 2) }) ∧
      (∀ (j : Nat) (h : j < payload.length),
        Memory.read pix (s.rleu.row * s.rleu.cw + s.rleu.col + j) = payload[j]) ∧
      (∀ a, a < s.rleu.row * s.rleu.cw + s.rleu.col ∨
          s.rleu.row * s.rleu.cw + s.rleu.col + payload.length ≤ a →
        Memory.read pix a = Memory.read s.rleu.pix a)

/-- RAW raises TruncatedStream if a payload byte or the pad byte is missing, before it tests the canvas, and else
WriteOutOfCanvas if a pixel lies outside the canvas (R162, R235, R239). -/
def Obligations.RawErrors : Prop :=
  ∀ (s : State) (payload : List Byte), payload ≠ [] →
    (s.rleu.pos + (2 + payload.length + payload.length % 2) > s.rleu.inLen →
      RaisesAtToken s (exec (.raw payload) s) .truncatedStream) ∧
    (s.rleu.pos + (2 + payload.length + payload.length % 2) ≤ s.rleu.inLen →
      (s.rleu.row ≥ s.rleu.ch ∨ s.rleu.col + payload.length > s.rleu.cw) →
      RaisesAtToken s (exec (.raw payload) s) .writeOutOfCanvas)

/-- LIT under a clear flag, inside the canvas: exactly `n` pixels at the cursor take the colour, COL + n, POS + 2; no
other pixel and no other register changes, and nothing is recorded (R151, R152). -/
def Obligations.LitWritesTheRun : Prop :=
  ∀ (s : State) (n colour : Byte), s.rleu.tArmed = false →
    s.rleu.row < s.rleu.ch → s.rleu.col + n.toNat ≤ s.rleu.cw →
    ∃ pix, exec (.lit n colour) s = .next (s.setRleu { s.rleu with
        pix := pix, col := s.rleu.col + n.toNat, pos := s.rleu.pos + 2 }) ∧
      ∀ a, Memory.read pix a =
        if s.rleu.row * s.rleu.cw + s.rleu.col ≤ a ∧ a < s.rleu.row * s.rleu.cw + s.rleu.col + n.toNat then colour
        else Memory.read s.rleu.pix a

/-- LIT under a set flag, inside the canvas and with room in TRL: the same pixels and cursor, and the record
`(T_ROW, T_COL, COL - T_COL)` with the new COL is appended and the flag cleared (R151, R152). -/
def Obligations.ArmedLitRecordsTheRun : Prop :=
  ∀ (s : State) (n colour : Byte), s.rleu.tArmed = true →
    s.rleu.row < s.rleu.ch → s.rleu.col + n.toNat ≤ s.rleu.cw →
    withinCap s.params.trlCap (s.rleu.trlCount + 1) = true →
    ∃ pix, exec (.lit n colour) s = .next (s.setRleu { s.rleu with
        pix := pix, col := s.rleu.col + n.toNat, pos := s.rleu.pos + 2, tArmed := false,
        trl := s.rleu.trl ++ [⟨s.rleu.tRow, s.rleu.tCol, s.rleu.col + n.toNat - s.rleu.tCol⟩] }) ∧
      ∀ a, Memory.read pix a =
        if s.rleu.row * s.rleu.cw + s.rleu.col ≤ a ∧ a < s.rleu.row * s.rleu.cw + s.rleu.col + n.toNat then colour
        else Memory.read s.rleu.pix a

/-- LIT raises WriteOutOfCanvas if a pixel of the run lies outside the canvas, and after that test
AllocationFailure if the flag is set and TRL is full (R66, R151, R235, R239). -/
def Obligations.LitErrors : Prop :=
  ∀ (s : State) (n colour : Byte), n ≠ 0 →
    ((s.rleu.row ≥ s.rleu.ch ∨ s.rleu.col + n.toNat > s.rleu.cw) →
      RaisesAtToken s (exec (.lit n colour) s) .writeOutOfCanvas) ∧
    (s.rleu.row < s.rleu.ch → s.rleu.col + n.toNat ≤ s.rleu.cw → s.rleu.tArmed = true →
      (∃ c, s.params.trlCap = some c ∧ c ≤ s.rleu.trlCount) →
      RaisesAtToken s (exec (.lit n colour) s) .allocationFailure)

/-- T_ARMED after each token that does not raise: TRN sets it, LIT, EOR and EOI leave it clear, REPOS and RAW leave it as
it was, and so do HDR and SAMPLE (R37, R157, R161, R163). -/
def Obligations.ArmedFlagRule : Prop :=
  ∀ (i : Instr) (s t : State), s.rleu.rstate ≠ .err → exec i s = .next t → t.rleu.rstate ≠ .err →
    t.rleu.tArmed =
      match i with
      | .trn => true
      | .lit _ _ => false
      | .eor => false
      | .eoi => false
      | .repos _ _ => s.rleu.tArmed
      | .raw _ => s.rleu.tArmed
      | .hdr => s.rleu.tArmed
      | .sample _ => s.rleu.tArmed

/-- A token that raises changes no register but the error registers, RSTATE and TRL_COUNT, and its context is the cursor
at its start (R150, R236, R237). Nothing is said of TRL_COUNT: R150 keeps it, R237 gives it any value, and the model
takes R237 (log entry 8). -/
def Obligations.FailingTokenChangesNoRegister : Prop :=
  ∀ (i : Instr) (s t : State), s.rleu.rstate ≠ .err → exec i s = .next t → t.rleu.rstate = .err →
    ∃ e, e ≠ .none ∧ RaisedTo s t e s.rleu.pos s.rleu.row s.rleu.col

/-! ### ADPU -/

/-- SAMPLE: the six steps of the source on exact integers, with the tables of R205 and R206: the magnitude is one
truncating division of `(2k+1) * step` by 8, the sign is applied after, the sum is saturated, the index clamped, the
new predictor emitted as 16 bits, the code pointer moved by one nibble; nothing else changes, no other sample among it
(R204, R207 to R212). It rests on the table values of R205 and R206 (log entries 6 and 7). -/
def Obligations.SampleDecodesOneCode : Prop :=
  ∀ (s : State) (c : Code),
    let k := c.toNat % 8
    let m : Int := (((2 * k + 1) * stepTable.getD s.adpu.stepIndex.val 0) / 8 : Nat)
    let d : Int := if 8 ≤ c.toNat then -m else m
    let predictor := max (-32768) (min 32767 (s.adpu.predictor + d))
    ∃ pcm index, exec (.sample c) s = .next (s.setAdpu { s.adpu with
        predictor := predictor, stepIndex := index, pcm := pcm, outCount := s.adpu.outCount + 1,
        apos := s.adpu.apos + s.adpu.nib.toNat, nib := !s.adpu.nib }) ∧
      (index.val : Int) = max 0 (min 88 ((s.adpu.stepIndex.val : Int) + [-1, -1, -1, -1, 2, 4, 6, 8].getD k 0)) ∧
      ∀ j, Memory.read16 pcm j = if j = s.adpu.outCount then BitVec.ofInt 16 predictor else Memory.read16 s.adpu.pcm j

/-- The sample SAMPLE stores is the new PREDICTOR in two's complement, low byte at `2 * i`, high byte at `2 * i + 1`,
and every other byte of PCM is unchanged (R68, R212). -/
def Obligations.SampleIsLittleEndian : Prop :=
  ∀ (s t : State) (c : Code), exec (.sample c) s = .next t →
    (t.adpu.predictor = (Memory.read16 t.adpu.pcm s.adpu.outCount).toInt) ∧
    ((Memory.read t.adpu.pcm (2 * s.adpu.outCount)).toNat : Int) = t.adpu.predictor % 256 ∧
    ((Memory.read t.adpu.pcm (2 * s.adpu.outCount + 1)).toNat : Int) = t.adpu.predictor / 256 % 256 ∧
    ∀ a, a ≠ 2 * s.adpu.outCount → a ≠ 2 * s.adpu.outCount + 1 →
      Memory.read t.adpu.pcm a = Memory.read s.adpu.pcm a

/-- The job-start step of ADPU: AllocationFailure exactly if `2 * AIN_LEN` samples do not fit PCM, else the state
`(0, 0)` at the first code, in RUN (R200, R201). ADP_START in IDLE, DONE or ERR with AIN_LEN written does it. -/
def Obligations.AdpuJobStart : Prop :=
  ∀ s : State, s.adpu.astate ≠ .run → s.adpu.ainLenWritten = true →
    ((∃ c, s.params.pcmCap = some c ∧ c < 2 * s.adpu.ainLen) →
      ∃ t, hostMove .adpStart s = .next t ∧ t = s.setAdpu { s.adpu with
        aerrCode := .allocationFailure, astate := .err,
        pcm := t.adpu.pcm, outCount := t.adpu.outCount, draws := t.adpu.draws }) ∧
    ((∀ c, s.params.pcmCap = some c → 2 * s.adpu.ainLen ≤ c) →
      hostMove .adpStart s = .next (s.setAdpu { s.adpu with
        aerrCode := .none, predictor := 0, stepIndex := 0, apos := 0, nib := false, outCount := 0, astate := .run }))

/-- A job of `n` bytes takes `2n` SAMPLE steps and one finishing step, and ends in DONE with exactly `2n` samples
written (R202, R213). -/
def Obligations.AdpuJobGivesTwoSamplesPerByte : Prop :=
  ∀ s : State, s.adpu.astate = .run → s.adpu.apos = 0 → s.adpu.nib = false → s.adpu.outCount = 0 →
    (∀ n t, n ≤ 2 * s.adpu.ainLen → turns adpuTurn n s = .next t →
      t.adpu.astate = .run ∧ t.adpu.outCount = n ∧ 2 * t.adpu.apos + t.adpu.nib.toNat = n) ∧
    ∃ t, turns adpuTurn (2 * s.adpu.ainLen + 1) s = .next t ∧ t.adpu.astate = .done ∧
      t.adpu.outCount = 2 * s.adpu.ainLen ∧ t.adpu.apos = s.adpu.ainLen ∧ t.adpu.nib = false ∧
      t.adpu.ainLen = s.adpu.ainLen ∧ t.adpu.ain = s.adpu.ain

/-- A stream of all-zero nibbles keeps STEP_INDEX at 0 and gives only samples of 0, however many codes have been decoded
(R216 (b)). It rests on the table values of R205 and R206 (log entries 6 and 7). -/
def Obligations.ZeroNibblesGiveSilence : Prop :=
  ∀ s : State, s.adpu.astate = .run → s.adpu.apos = 0 → s.adpu.nib = false → s.adpu.outCount = 0 →
    s.adpu.predictor = 0 → s.adpu.stepIndex = 0 →
    (∀ a, a < s.adpu.ainLen → Memory.read s.adpu.ain a = 0x00) →
    ∀ n t, n ≤ 2 * s.adpu.ainLen → turns adpuTurn n s = .next t →
      t.adpu.predictor = 0 ∧ t.adpu.stepIndex = 0 ∧ t.adpu.outCount = n ∧
      ∀ i, i < n → Memory.read16 t.adpu.pcm i = 0

/-! ### The job-start step of RLEU -/

/-- RLE_START in IDLE, DONE or ERR with the parameters written is the job-start step Rleu.jobStart, and its checks
report GeometryOverflow before SizeMismatch before AllocationFailure, each with the context `(0, FRAME_Y, FRAME_X)` and
with no other register changed but RSTATE and TRL_COUNT (R120, R121, R122, R123, R125, R233, R234, R236, R239). Nothing
is said of TRL_COUNT, to which R237 gives any value (log entry 8). That a failing start keeps CW_EFF and CH_EFF too is
the model's choice between R125 and R236 (log entry 15). -/
def Obligations.JobStartErrors : Prop :=
  ∀ s : State, s.rleu.rstate ≠ .run → s.rleu.rstate ≠ .compose → s.rleu.parametersWritten = true →
    let cw := if s.rleu.rctrl.cwSet then s.rleu.canvasW.toNat else s.rleu.frameW.toNat
    let ch := if s.rleu.rctrl.chSet then s.rleu.canvasH.toNat else s.rleu.frameH.toNat
    let badGeometry := s.rleu.frameX.toNat + s.rleu.frameW.toNat > cw ∨ s.rleu.frameY.toNat + s.rleu.frameH.toNat > ch
    let badKey := s.rleu.rctrl.keyPresent = true ∧ s.rleu.keyLen ≠ cw * ch
    let noRoom := ∃ c, s.params.pixCap = some c ∧ c < cw * ch
    let raises := fun e => ∃ t, hostMove .rleStart s = .next t ∧
      RaisedTo s t e 0 s.rleu.frameY.toNat s.rleu.frameX.toNat
    hostMove .rleStart s = .next (s.setRleu (Rleu.jobStart s.params s.rleu)) ∧
    (badGeometry → raises .geometryOverflow) ∧
    (¬ badGeometry → badKey → raises .sizeMismatch) ∧
    (¬ badGeometry → ¬ badKey → noRoom → raises .allocationFailure) ∧
    (¬ badGeometry → ¬ badKey → ¬ noRoom → ∃ t, hostMove .rleStart s = .next t ∧ t.rleu.rstate ≠ .err ∧
      t.rleu.errCode = .none)

/-- A stream of at most two bytes ends a job whose checks pass in DONE at job start: PIX zero over the whole canvas of
the requested size, no record, T_ARMED clear, the cursor at the frame's top left, POS 0, the effective canvas, ERR_CODE
clear and no composite step, keyframe or not; nothing else changes (R32, R124, R126). Bytes of PIX outside the canvas
stay (log entry 19). -/
def Obligations.ShortStreamGivesZeroes : Prop :=
  ∀ (p : Params) (r : Rleu), r.geometryOverflows = false → r.keySizeMismatches = false →
    withinCap p.pixCap r.jobPixels = true → r.inLen ≤ 2 →
    ∃ pix, Rleu.jobStart p r = { r with
        cwEff := (if r.rctrl.cwSet then r.canvasW else r.frameW),
        chEff := (if r.rctrl.chSet then r.canvasH else r.frameH),
        errCode := .none, pix := pix, trl := [], tArmed := false, row := r.frameY.toNat, col := r.frameX.toNat,
        pos := 0, rstate := .done } ∧
      ∀ a, Memory.read pix a = if a < r.jobCanvasW.toNat * r.jobCanvasH.toNat then 0x00 else Memory.read r.pix a

/-- The initialisation of a job whose checks pass and whose stream is longer than two bytes: PIX zero over the whole
canvas, no record, T_ARMED clear, the cursor at the frame's top left, the effective canvas, ERR_CODE clear; COMPOSE at
once for a frame of height 0, else RUN (R32, R124, R128). T_ROW and T_COL are unwritten, as R33 says. Bytes of PIX outside
the canvas stay (log entry 19). -/
def Obligations.JobStartInitialises : Prop :=
  ∀ (p : Params) (r : Rleu), r.geometryOverflows = false → r.keySizeMismatches = false →
    withinCap p.pixCap r.jobPixels = true → 3 ≤ r.inLen →
    ∃ pix pos, Rleu.jobStart p r = { r with
        cwEff := (if r.rctrl.cwSet then r.canvasW else r.frameW),
        chEff := (if r.rctrl.chSet then r.canvasH else r.frameH),
        errCode := .none, pix := pix, trl := [], tArmed := false, row := r.frameY.toNat, col := r.frameX.toNat,
        pos := pos, rstate := if r.frameH = 0 then .compose else .run } ∧
      (pos = 0 ∨ pos = 2) ∧
      ∀ a, Memory.read pix a = if a < r.jobCanvasW.toNat * r.jobCanvasH.toNat then 0x00 else Memory.read r.pix a

/-- A job of RLEU or ADPU does not depend on any earlier one: two units with the same parameter registers and the same
input memories (for ADPU: AIN_LEN and AIN) start the same job, whatever their other registers and memories hold (R263). -/
def Obligations.JobStartForgetsEarlierJobs : Prop :=
  (∀ (p : Params) (r r' : Rleu), r.SameInputs r' → (Rleu.jobStart p r).SameJob (Rleu.jobStart p r')) ∧
  (∀ (p : Params) (d d' : Adpu), d.ainLen = d'.ainLen → d.ain = d'.ain →
    (Adpu.jobStart p d).SameJob (Adpu.jobStart p d'))

/-- And RLEU and ADPU each go on with the same job at every turn of theirs, so they end with the same outputs (R263). -/
def Obligations.TurnsKeepTheSameJob : Prop :=
  (∀ s s' t t' : State, s.params = s'.params → s.rleu.SameJob s'.rleu →
    rleuTurn s = .next t → rleuTurn s' = .next t' → t.rleu.SameJob t'.rleu) ∧
  (∀ s s' t t' : State, s.adpu.SameJob s'.adpu →
    adpuTurn s = .next t → adpuTurn s' = .next t' → t.adpu.SameJob t'.adpu)

/-- The optional header makes no difference: a job on a stream of more than two bytes that does not begin `00 00`, and
the same job on that stream after a header, go the same way at the job start and at every turn. POS is 2 more in RUN,
COMPOSE and DONE; an error of the job start has the same ERR_POS, an error of a token has POS and ERR_POS 2 more. Of
the outputs in ERR nothing is said (R127, R237; C8). -/
def Obligations.HeaderMakesNoDifference : Prop :=
  (∀ (p : Params) (r : Rleu) (m : Memory), 3 ≤ r.inLen →
    ¬ (Memory.read r.inMem 0 = 0x00 ∧ Memory.read r.inMem 1 = 0x00) →
    Memory.read m 0 = 0x00 → Memory.read m 1 = 0x00 → (∀ a, Memory.read m (a + 2) = Memory.read r.inMem a) →
    (Rleu.jobStart p r).WithHeader (Rleu.jobStart p { r with inMem := m, inLen := r.inLen + 2 }) ∧
    ((Rleu.jobStart p r).rstate = .err →
      (Rleu.jobStart p { r with inMem := m, inLen := r.inLen + 2 }).errPos = (Rleu.jobStart p r).errPos)) ∧
  (∀ s s' t t' : State, s.params = s'.params → s.rleu.WithHeader s'.rleu →
    rleuTurn s = .next t → rleuTurn s' = .next t' → t.rleu.WithHeader t'.rleu ∧
    (s.rleu.rstate = .run → t.rleu.rstate = .err →
      t'.rleu.pos = t.rleu.pos + 2 ∧ t'.rleu.errPos = t.rleu.errPos + 2))

/-! ### The composite step -/

/-- With a keyframe and at least one record, the composite step gives every pixel of a record the keyframe's value and
leaves every other pixel, whatever its value; it changes nothing but PIX and RSTATE (R180, R181, R182). -/
def Obligations.RunCompositing : Prop :=
  ∀ s : State, s.rleu.rstate = .compose → s.rleu.rctrl.keyPresent = true → s.rleu.trlCount > 0 →
    ∃ pix, rleuTurn s = .next (s.setRleu { s.rleu with pix := pix, rstate := .done }) ∧
      ∀ a, ((∃ t ∈ s.rleu.trl, t.row * s.rleu.cw + t.col ≤ a ∧ a < t.row * s.rleu.cw + t.col + t.len) →
          Memory.read pix a = Memory.read s.rleu.keyMem a) ∧
        ((∀ t ∈ s.rleu.trl, a < t.row * s.rleu.cw + t.col ∨ t.row * s.rleu.cw + t.col + t.len ≤ a) →
          Memory.read pix a = Memory.read s.rleu.pix a)

/-- With a keyframe and no record, the composite step gives every background pixel of the whole canvas the keyframe's
value and leaves every other pixel; it changes nothing but PIX and RSTATE (R180, R181, R183). -/
def Obligations.BackgroundFallback : Prop :=
  ∀ s : State, s.rleu.rstate = .compose → s.rleu.rctrl.keyPresent = true → s.rleu.trlCount = 0 →
    ∃ pix, rleuTurn s = .next (s.setRleu { s.rleu with pix := pix, rstate := .done }) ∧
      ∀ a, Memory.read pix a =
        if a < s.rleu.cw * s.rleu.ch ∧ Memory.read s.rleu.pix a = 0x00 then Memory.read s.rleu.keyMem a
        else Memory.read s.rleu.pix a

/-- Without a keyframe the composite step changes nothing but RSTATE (R181, R185). -/
def Obligations.NoKeyframeNoCompositing : Prop :=
  ∀ s : State, s.rleu.rstate = .compose → s.rleu.rctrl.keyPresent = false →
    rleuTurn s = .next (s.setRleu { s.rleu with rstate := .done })

/-- The byte mask marks exactly the pixels of the records with 0xFF, and two abutting records of one row give the same
mask as the one record they make together (R187). -/
def Obligations.MaskMarksTheRecords : Prop :=
  (∀ (r : Rleu) (row col : Nat), r.RecordsInCanvas → row < r.ch → col < r.cw →
    maskByte r.cw r.trl (row * r.cw + col) =
      if ∃ t ∈ r.trl, t.row = row ∧ t.col ≤ col ∧ col < t.col + t.len then 0xFF else 0x00) ∧
  (∀ cw row col m n a, maskByte cw [⟨row, col, m⟩, ⟨row, col + m, n⟩] a = maskByte cw [⟨row, col, m + n⟩] a)

/-! ### HOST -/

/-- RESET is accepted in any state, and after it, as in the machine's first state, every register to which R260 gives a
reset value has that value (R260). Of the other registers nothing is said. -/
def Obligations.ResetSetsTheRegisters : Prop :=
  (∀ s : State, ∃ t, hostMove .reset s = .next t) ∧
  ∀ s t : State, t = State.reset ∨ hostMove .reset s = .next t →
    t.rleu.rstate = .idle ∧ t.adpu.astate = .idle ∧ t.rleu.errCode = .none ∧ t.adpu.aerrCode = .none ∧
    t.rleu.frameX = 0 ∧ t.rleu.frameY = 0 ∧ t.rleu.rctrl = ⟨false, false, false⟩ ∧ t.rleu.tArmed = false ∧
    t.rleu.trlCount = 0 ∧ t.adpu.outCount = 0

/-- What HOST must not do is refused: a start command to a running unit, a write of a running unit's parameters or
memories, and a start whose job would read a parameter register never written since RESET (R30, R53, R264, R265, R268,
R269; U3, U4, U5); and, in any state, a write of a length that LEN_BITS bits do not hold (R27, R28, R43). The last refusal
is the model's choice (log entry 14), and so is the record of what HOST has written (log entry 10). -/
def Obligations.ForbiddenHostMovesAreRefused : Prop :=
  ∀ s : State,
    ((s.rleu.rstate = .run ∨ s.rleu.rstate = .compose) →
      hostMove .rleStart s = .refused .startWhileRunning ∧
      (∀ v, hostMove (.writeFrameW v) s = .refused .parameterWriteWhileRunning) ∧
      (∀ v, hostMove (.writeFrameH v) s = .refused .parameterWriteWhileRunning) ∧
      (∀ v, hostMove (.writeCanvasW v) s = .refused .parameterWriteWhileRunning) ∧
      (∀ v, hostMove (.writeCanvasH v) s = .refused .parameterWriteWhileRunning) ∧
      (∀ v, hostMove (.writeFrameX v) s = .refused .parameterWriteWhileRunning) ∧
      (∀ v, hostMove (.writeFrameY v) s = .refused .parameterWriteWhileRunning) ∧
      (∀ v, v < 2 ^ s.params.lenBits → hostMove (.writeInLen v) s = .refused .parameterWriteWhileRunning) ∧
      (∀ v, v < 2 ^ s.params.lenBits → hostMove (.writeKeyLen v) s = .refused .parameterWriteWhileRunning) ∧
      (∀ v, hostMove (.writeRctrl v) s = .refused .parameterWriteWhileRunning) ∧
      (∀ a v, hostMove (.writeIn a v) s = .refused .memoryWriteWhileRunning) ∧
      (∀ a v, hostMove (.writeKey a v) s = .refused .memoryWriteWhileRunning)) ∧
    (s.adpu.astate = .run →
      hostMove .adpStart s = .refused .startWhileRunning ∧
      (∀ v, v < 2 ^ s.params.lenBits → hostMove (.writeAinLen v) s = .refused .parameterWriteWhileRunning) ∧
      (∀ a v, hostMove (.writeAin a v) s = .refused .memoryWriteWhileRunning)) ∧
    (s.rleu.rstate ≠ .run → s.rleu.rstate ≠ .compose →
      (s.rleu.written.frameW = false ∨ s.rleu.written.frameH = false ∨ s.rleu.written.inLen = false ∨
        (s.rleu.rctrl.cwSet = true ∧ s.rleu.written.canvasW = false) ∨
        (s.rleu.rctrl.chSet = true ∧ s.rleu.written.canvasH = false) ∨
        (s.rleu.rctrl.keyPresent = true ∧ s.rleu.written.keyLen = false)) →
      hostMove .rleStart s = .refused .parameterNeverWritten) ∧
    (s.adpu.astate ≠ .run → s.adpu.ainLenWritten = false → hostMove .adpStart s = .refused .parameterNeverWritten) ∧
    (∀ v, 2 ^ s.params.lenBits ≤ v →
      hostMove (.writeInLen v) s = .refused .lengthTooWide ∧
      hostMove (.writeKeyLen v) s = .refused .lengthTooWide ∧
      hostMove (.writeAinLen v) s = .refused .lengthTooWide)

/-- HOST gets an output only from DONE: a read of PIX, TRL or PCM in any other state of the owning unit is refused, and
in DONE every existing element is read (R69, R266, R270). The refusal is the model's choice (log entry 16). -/
def Obligations.OutputsAreReadInDoneOnly : Prop :=
  ∀ s : State,
    (s.rleu.rstate ≠ .done → ∀ i, readPix i s = .refused .outputReadBeforeDone ∧
      readTrl i s = .refused .outputReadBeforeDone) ∧
    (s.adpu.astate ≠ .done → ∀ i, readPcm i s = .refused .outputReadBeforeDone) ∧
    (s.rleu.rstate = .done →
      (∀ row col, row < s.rleu.ch → col < s.rleu.cw →
        readPix (row * s.rleu.cw + col) s = .next (Memory.read s.rleu.pix (row * s.rleu.cw + col))) ∧
      ∀ (j : Nat) (h : j < s.rleu.trl.length), readTrl j s = .next s.rleu.trl[j]) ∧
    (s.adpu.astate = .done → ∀ i, i < s.adpu.outCount → readPcm i s = .next (Memory.read16 s.adpu.pcm i))

/-! ### The whole machine -/

/-- The two invariants hold right after reset (R42, R52). State.reset's values of the registers and memories that the
spec leaves unspecified are the model's choice (log entries 1 and 2), so the bounds on PREDICTOR, IN_LEN, KEY_LEN and
AIN_LEN and the form of the memories there are too. -/
def Obligations.InvariantHoldsAtReset : Prop :=
  State.reset.Inv ∧ State.reset.rleu.PassInv

/-- Every step keeps the invariant: memories stay canonical and within their capacities, POS stays even and at most
IN_LEN, the records stay inside the canvas, the predictor within 16 bits, OUT_COUNT = 2 * APOS + NIB in RUN and DONE
(R34, R39, R42, R44, R50, R52, R184). R44 and R52 bound PREDICTOR after a SAMPLE and in RUN: its bound in IDLE and ERR
rests on the model's 0 after reset (log entries 1 and 9), and in ERR the bounds of PIX, TRL_COUNT, PCM and OUT_COUNT
rest on the model's free values (log entry 8), in IDLE those of the memories on log entry 9. -/
def Obligations.StepKeepsTheInvariant : Prop :=
  ∀ s t : State, s.Inv → step s = .next t → t.Inv

/-- Every step keeps what the token pass keeps: records of the run list never overlap and stand in reading order behind
the cursor, and the pixels at and after the cursor are zero, so no pixel is written twice (R42 (d), R63, R64, R182). -/
def Obligations.RecordsNeverOverlap : Prop :=
  ∀ s t : State, s.Inv → s.rleu.PassInv → step s = .next t → t.rleu.PassInv

/-- At every token that leaves RLEU in RUN, POS moves forward by at least two and an even number, the cursor never moves
back in reading order, ROW never decreases, and COL never decreases but at EOR, which takes the cursor to FRAME_X in the
next row (R34, R35, R42 (a) to (d)). -/
def Obligations.CursorNeverMovesBack : Prop :=
  ∀ s t : State, s.rleu.rstate = .run → rleuTurn s = .next t → t.rleu.rstate = .run →
    s.rleu.pos + 2 ≤ t.rleu.pos ∧ t.rleu.pos % 2 = s.rleu.pos % 2 ∧ t.rleu.pos ≤ t.rleu.inLen ∧
    (s.rleu.row < t.rleu.row ∨ (s.rleu.row = t.rleu.row ∧ s.rleu.col ≤ t.rleu.col)) ∧
    (∀ rest, s.rleu.fetch = .token .eor rest → t.rleu.row = s.rleu.row + 1 ∧ t.rleu.col = s.rleu.frameX.toNat) ∧
    ((∀ rest, s.rleu.fetch ≠ .token .eor rest) → s.rleu.col ≤ t.rleu.col)

/-- No token reads a byte of IN at or beyond IN_LEN: two units that differ in such bytes only, and in ERR in the outputs,
do the same at every job start and every turn. Of the outputs in ERR nothing is said (R61, R136 (a), R237). -/
def Obligations.StreamIsNotReadPastItsLength : Prop :=
  (∀ (p : Params) (r : Rleu) (m : Memory), (∀ a, a < r.inLen → Memory.read m a = Memory.read r.inMem a) →
    Rleu.SameButFree { Rleu.jobStart p r with inMem := m } (Rleu.jobStart p { r with inMem := m })) ∧
  (∀ s s' : State, (∀ a, a < s.rleu.inLen → Memory.read s'.rleu.inMem a = Memory.read s.rleu.inMem a) →
    s.params = s'.params → Rleu.SameButFree { s.rleu with inMem := s'.rleu.inMem } s'.rleu →
    ∃ r r', rleuTurn s = .next (s.setRleu r) ∧ rleuTurn s' = .next (s'.setRleu r') ∧
      r.inMem = s.rleu.inMem ∧ r'.inMem = s'.rleu.inMem ∧ Rleu.SameButFree { r with inMem := r'.inMem } r')

/-- A unit never writes its parameter registers nor its input memories, and nothing of the other unit: RLEU's turn leaves
all of them, and so does ADPU's (R3, R20, R61, R62, R67). -/
def Obligations.UnitsKeepTheirInputs : Prop :=
  (∀ s t : State, rleuTurn s = .next t → t.rleu.SameInputs s.rleu ∧ t.rleu.written = s.rleu.written ∧
    t.adpu = s.adpu ∧ t.params = s.params ∧ t.pending = s.pending) ∧
  (∀ s t : State, adpuTurn s = .next t → t.adpu.ainLen = s.adpu.ainLen ∧ t.adpu.ain = s.adpu.ain ∧
    t.adpu.ainLenWritten = s.adpu.ainLenWritten ∧
    t.rleu = s.rleu ∧ t.params = s.params ∧ t.pending = s.pending)

/-- A unit that is idle, done or in error takes no step (R9, R240, R262). -/
def Obligations.RestingUnitsDoNothing : Prop :=
  ∀ s : State,
    (s.rleu.rstate ≠ .run → s.rleu.rstate ≠ .compose → rleuTurn s = .next s) ∧
    (s.adpu.astate ≠ .run → adpuTurn s = .next s)

/-- No step faults, and a step refuses only a move of HOST: the units complete every turn (R107, R132, R276). -/
def Obligations.UnitsNeverStop : Prop :=
  ∀ s : State,
    (∃ t, rleuTurn s = .next t) ∧ (∃ t, adpuTurn s = .next t) ∧ (∀ f, step s ≠ .fault f) ∧
    ((∀ m events, s.pending ≠ .host m :: events) → ∃ t, step s = .next t)

/-- Every job of RLEU ends: from any state in RUN, at most one turn for each two bytes left, one for exhaustion and one
for the composite step lead to DONE or ERR (R132, R274, R276). -/
def Obligations.RleuJobEnds : Prop :=
  ∀ s : State, s.rleu.rstate = .run →
    ∃ n t, n ≤ (s.rleu.inLen - s.rleu.pos + 1) / 2 + 2 ∧ turns rleuTurn n s = .next t ∧
      (t.rleu.rstate = .done ∨ t.rleu.rstate = .err)

/-- Every interleaving of turns of the two units gives the state that each unit's turns give alone (R3, R80). -/
def Obligations.InterleavingsAgree : Prop :=
  ∀ (order : List UnitName) (s : State), ∃ a b,
    turns rleuTurn (order.count .rleu) s = .next a ∧ turns adpuTurn (order.count .adpu) s = .next b ∧
    interleave order s = .next ((s.setRleu a.rleu).setAdpu b.adpu)

/-- The token pass ends at exhaustion, at EOI, or at an EOR that reaches the row limit, and in no other way but an error,
which is one of three kinds (R132). -/
def Obligations.PassEndsInOneOfThreeWays : Prop :=
  ∀ s t : State, s.rleu.rstate = .run → rleuTurn s = .next t →
    (t.rleu.rstate = .compose ↔
      s.rleu.fetch = .exhausted ∨ (∃ rest, s.rleu.fetch = .token .eoi rest) ∨
      (∃ rest, s.rleu.fetch = .token .eor rest ∧
        s.rleu.row + 1 ≥ s.rleu.frameY.toNat + s.rleu.frameH.toNat)) ∧
    (t.rleu.rstate = .run ∨ t.rleu.rstate = .compose ∨ t.rleu.rstate = .err) ∧
    (t.rleu.rstate = .err → t.rleu.errCode = .truncatedStream ∨ t.rleu.errCode = .writeOutOfCanvas ∨
      t.rleu.errCode = .allocationFailure)

/-- ADPU raises at job start only: none of its turns enters ERR, and none changes AERR_CODE (R107, R202, R238). -/
def Obligations.AdpuTurnsNeverRaise : Prop :=
  ∀ s t : State, adpuTurn s = .next t →
    t.adpu.aerrCode = s.adpu.aerrCode ∧ (t.adpu.astate = .err → s.adpu.astate = .err)

/-- HOST writes to a unit in IDLE, DONE or ERR, whatever the other unit does, reach the register or the byte they name
and nothing else but the model's own mark that the register has been written (R20, R30, R69, R266; log entry 10). That a
byte of an input memory is written at any index is the model's choice (log entry 21). -/
def Obligations.HostWritesReachTheirRegister : Prop :=
  ∀ s : State,
    (s.rleu.rstate ≠ .run → s.rleu.rstate ≠ .compose →
      (∀ v, hostMove (.writeFrameW v) s = .next (s.setRleu { s.rleu with
        frameW := v, written := { s.rleu.written with frameW := true } })) ∧
      (∀ v, hostMove (.writeFrameH v) s = .next (s.setRleu { s.rleu with
        frameH := v, written := { s.rleu.written with frameH := true } })) ∧
      (∀ v, hostMove (.writeCanvasW v) s = .next (s.setRleu { s.rleu with
        canvasW := v, written := { s.rleu.written with canvasW := true } })) ∧
      (∀ v, hostMove (.writeCanvasH v) s = .next (s.setRleu { s.rleu with
        canvasH := v, written := { s.rleu.written with canvasH := true } })) ∧
      (∀ v, hostMove (.writeFrameX v) s = .next (s.setRleu { s.rleu with frameX := v })) ∧
      (∀ v, hostMove (.writeFrameY v) s = .next (s.setRleu { s.rleu with frameY := v })) ∧
      (∀ v, hostMove (.writeRctrl v) s = .next (s.setRleu { s.rleu with rctrl := v })) ∧
      (∀ v, v < 2 ^ s.params.lenBits →
        hostMove (.writeInLen v) s = .next (s.setRleu { s.rleu with
          inLen := v, written := { s.rleu.written with inLen := true } }) ∧
        hostMove (.writeKeyLen v) s = .next (s.setRleu { s.rleu with
          keyLen := v, written := { s.rleu.written with keyLen := true } })) ∧
      (∀ a v, ∃ m, hostMove (.writeIn a v) s = .next (s.setRleu { s.rleu with inMem := m }) ∧
        ∀ x, Memory.read m x = if x = a then v else Memory.read s.rleu.inMem x) ∧
      (∀ a v, ∃ m, hostMove (.writeKey a v) s = .next (s.setRleu { s.rleu with keyMem := m }) ∧
        ∀ x, Memory.read m x = if x = a then v else Memory.read s.rleu.keyMem x)) ∧
    (s.adpu.astate ≠ .run →
      (∀ v, v < 2 ^ s.params.lenBits →
        hostMove (.writeAinLen v) s = .next (s.setAdpu { s.adpu with ainLen := v, ainLenWritten := true })) ∧
      (∀ a v, ∃ m, hostMove (.writeAin a v) s = .next (s.setAdpu { s.adpu with ain := m }) ∧
        ∀ x, Memory.read m x = if x = a then v else Memory.read s.adpu.ain x))

/-- HOST reads every register in any state as the number the spec gives it: naturals and the signed PREDICTOR as they
are, bits as 0 and 1, state and error registers by their encodings, RCTRL by its bits (R20, R29, R31, R46, R231, R266). -/
def Obligations.RegisterEncodings : Prop :=
  [RState.idle, .run, .compose, .done, .err].map rstateNumber = [0, 1, 2, 3, 4] ∧
  [AState.idle, .run, .done, .err].map astateNumber = [0, 1, 3, 4] ∧
  [ErrCode.none, .truncatedStream, .geometryOverflow, .sizeMismatch, .allocationFailure, .writeOutOfCanvas].map
    errNumber = [0, 1, 2, 3, 4, 5] ∧
  (∀ x : Rctrl, rctrlNumber x < 8 ∧ (rctrlNumber x).testBit 0 = x.keyPresent ∧
    (rctrlNumber x).testBit 1 = x.cwSet ∧ (rctrlNumber x).testBit 2 = x.chSet) ∧
  ∀ s : State,
    readReg .frameW s = s.rleu.frameW.toNat ∧ readReg .frameH s = s.rleu.frameH.toNat ∧
    readReg .canvasW s = s.rleu.canvasW.toNat ∧ readReg .canvasH s = s.rleu.canvasH.toNat ∧
    readReg .frameX s = s.rleu.frameX.toNat ∧ readReg .frameY s = s.rleu.frameY.toNat ∧
    readReg .inLen s = s.rleu.inLen ∧ readReg .keyLen s = s.rleu.keyLen ∧
    readReg .rctrl s = rctrlNumber s.rleu.rctrl ∧
    readReg .rstate s = rstateNumber s.rleu.rstate ∧ readReg .errCode s = errNumber s.rleu.errCode ∧
    readReg .errPos s = s.rleu.errPos ∧ readReg .errRow s = s.rleu.errRow ∧ readReg .errCol s = s.rleu.errCol ∧
    readReg .cwEff s = s.rleu.cwEff.toNat ∧ readReg .chEff s = s.rleu.chEff.toNat ∧
    readReg .pos s = s.rleu.pos ∧ readReg .row s = s.rleu.row ∧ readReg .col s = s.rleu.col ∧
    readReg .tArmed s = (if s.rleu.tArmed then 1 else 0) ∧
    readReg .tRow s = s.rleu.tRow ∧ readReg .tCol s = s.rleu.tCol ∧ readReg .trlCount s = s.rleu.trl.length ∧
    readReg .ainLen s = s.adpu.ainLen ∧ readReg .astate s = astateNumber s.adpu.astate ∧
    readReg .aerrCode s = errNumber s.adpu.aerrCode ∧ readReg .predictor s = s.adpu.predictor ∧
    readReg .stepIndex s = s.adpu.stepIndex.val ∧ readReg .apos s = s.adpu.apos ∧
    readReg .nib s = (if s.adpu.nib then 1 else 0) ∧ readReg .outCount s = s.adpu.outCount

/-- A step takes the next pending event: a turn of RLEU or of ADPU, whatever the unit then does (a token, exhaustion,
truncation, the composite step, a code, the finishing step, nothing), or one move of HOST (R9). The form of the events,
and that with none pending a running RLEU goes before ADPU, are the model's choice (log entry 3). -/
def Obligations.StepTakesTheNextEvent : Prop :=
  ∀ (s : State) (events : List Event),
    (s.pending = .rleu :: events → step s = rleuTurn (s.setPending events)) ∧
    (s.pending = .adpu :: events → step s = adpuTurn (s.setPending events)) ∧
    (∀ m, s.pending = .host m :: events → step s = hostMove m (s.setPending events)) ∧
    (s.pending = [] → s.rleu.rstate = .run ∨ s.rleu.rstate = .compose → step s = rleuTurn s) ∧
    (s.pending = [] → s.rleu.rstate ≠ .run → s.rleu.rstate ≠ .compose → step s = adpuTurn s)

/-- ADPU's turn in RUN with every byte consumed sets ASTATE to DONE and changes nothing else, so an empty input is done
at its first turn with no sample (R202). -/
def Obligations.AdpuFinishesWhenAllIsConsumed : Prop :=
  ∀ s : State, s.adpu.astate = .run → s.adpu.ainLen ≤ s.adpu.apos →
    adpuTurn s = .next (s.setAdpu { s.adpu with astate := .done })

/-- HOST reads IN and KEY while RLEU is in IDLE, DONE or ERR, AIN while ADPU is, and gets the byte last written there;
while the unit runs the read is refused (R69, R76, R244). The refusal, and that every index is read and written, are the
model's choice (log entries 16 and 21). -/
def Obligations.InputsAreReadWhileTheUnitRests : Prop :=
  ∀ (s : State) (a : Nat),
    (s.rleu.rstate ≠ .run → s.rleu.rstate ≠ .compose →
      readIn a s = .next (Memory.read s.rleu.inMem a) ∧ readKey a s = .next (Memory.read s.rleu.keyMem a) ∧
      (∀ v, ∃ t, hostMove (.writeIn a v) s = .next t ∧ readIn a t = .next v) ∧
      ∀ v, ∃ t, hostMove (.writeKey a v) s = .next t ∧ readKey a t = .next v) ∧
    (s.rleu.rstate = .run ∨ s.rleu.rstate = .compose →
      readIn a s = .refused .memoryReadWhileRunning ∧ readKey a s = .refused .memoryReadWhileRunning) ∧
    (s.adpu.astate ≠ .run → readAin a s = .next (Memory.read s.adpu.ain a) ∧
      ∀ v, ∃ t, hostMove (.writeAin a v) s = .next t ∧ readAin a t = .next v) ∧
    (s.adpu.astate = .run → readAin a s = .refused .memoryReadWhileRunning)
end

