-- ==== Sys2Proof/Laws/Decode.lean ====
section
/-! SUPPORT. What the token selection and the decoder can answer, said once. -/

namespace Sys2Proof

/-- Which pairs of first bytes select which token (R96). -/
theorem selectToken_spec (b0 b1 : Byte) :
    match selectToken b0 b1 with
    | .lit => b0 ≠ 0x00
    | .eor => b0 = 0x00 ∧ b1 = 0x00
    | .eoi => b0 = 0x00 ∧ b1 = 0x01
    | .trn => b0 = 0x00 ∧ b1 = 0x02
    | .repos => b0 = 0x00 ∧ b1 = 0x03
    | .raw => b0 = 0x00 ∧ 4 ≤ b1.toNat := by
  unfold selectToken
  by_cases h0 : b0 = 0x00
  · by_cases h1 : b1 = 0x00
    · simp [h0, h1]
    by_cases h2 : b1 = 0x01
    · simp [h0, h2]
    by_cases h3 : b1 = 0x02
    · simp [h0, h3]
    by_cases h4 : b1 = 0x03
    · simp [h0, h4]
    have n1 : b1.toNat ≠ 0 := fun h => h1 (BitVec.eq_of_toNat_eq h)
    have n2 : b1.toNat ≠ 1 := fun h => h2 (BitVec.eq_of_toNat_eq h)
    have n3 : b1.toNat ≠ 2 := fun h => h3 (BitVec.eq_of_toNat_eq h)
    have n4 : b1.toNat ≠ 3 := fun h => h4 (BitVec.eq_of_toNat_eq h)
    simp only [h0, h1, h2, h3, h4, ne_eq, not_true_eq_false, if_false, true_and]
    omega
  · rw [if_pos h0]
    exact h0

theorem selectToken_lit {b0 : Byte} (h : b0 ≠ 0x00) (b1 : Byte) : selectToken b0 b1 = .lit := if_pos h

theorem selectToken_raw {b1 : Byte} (h : 4 ≤ b1.toNat) : selectToken 0x00 b1 = .raw := by
  have hs := selectToken_spec 0x00 b1
  cases hk : selectToken 0x00 b1 <;> simp only [hk] at hs
  · rw [hs.2] at h; exact absurd h (by decide)
  · rw [hs.2] at h; exact absurd h (by decide)
  · rw [hs.2] at h; exact absurd h (by decide)
  · rw [hs.2] at h; exact absurd h (by decide)
  · rfl
  · exact absurd rfl hs

theorem fewerThan_eq (n : Nat) (bytes : List Byte) : fewerThan n bytes = decide (bytes.length < n) := by
  induction n generalizing bytes with
  | zero => simp [fewerThan]
  | succ k ih =>
    cases bytes with
    | nil => simp [fewerThan]
    | cons b rest => simp [fewerThan, ih]

/-- RAW is truncated exactly if a payload byte or the pad byte is missing (R162). -/
theorem decodeRaw_eq (k : Byte) (operands : List Byte) :
    decodeRaw k operands =
      if operands.length < rawTail k.toNat then .truncated
      else .token (.raw (operands.take k.toNat)) (operands.drop (rawTail k.toNat)) := by
  unfold decodeRaw
  rw [fewerThan_eq]
  simp only [decide_eq_true_eq]

/-- The bytes a raw token of `payload` is decoded from, whatever its pad byte (R95). -/
theorem decode_raw_bytes {payload pad : List Byte} (rest : List Byte) (h4 : 4 ≤ payload.length)
    (h255 : payload.length ≤ 255) (hpad : pad.length = payload.length % 2) :
    decode (0x00 :: BitVec.ofNat 8 payload.length :: (payload ++ pad ++ rest)) = .token (.raw payload) rest := by
  have hn : (BitVec.ofNat 8 payload.length).toNat = payload.length := by simp; omega
  have hs := selectToken_raw (b1 := BitVec.ofNat 8 payload.length) (by omega)
  simp only [decode, hs, decodeRaw_eq, hn, rawTail]
  rw [if_neg (by simp only [List.length_append]; omega)]
  congr 1
  · simp
  · rw [List.append_assoc, List.drop_append, List.drop_eq_nil_of_le (by omega), List.drop_append,
      List.drop_eq_nil_of_le (by omega),
      show payload.length + payload.length % 2 - payload.length - pad.length = 0 by omega]
    rfl

/-- Every way in which bytes decode to a token (R91 to R98). -/
theorem decode_token_cases {bytes : List Byte} {i : Instr} {rest : List Byte} (h : decode bytes = .token i rest) :
    (∃ n c, n ≠ 0x00 ∧ bytes = n :: c :: rest ∧ i = .lit n c) ∨
    (bytes = 0x00 :: 0x00 :: rest ∧ i = .eor) ∨
    (bytes = 0x00 :: 0x01 :: rest ∧ i = .eoi) ∨
    (bytes = 0x00 :: 0x02 :: rest ∧ i = .trn) ∨
    (∃ dx dy, bytes = 0x00 :: 0x03 :: dx :: dy :: rest ∧ i = .repos dx dy) ∨
    (∃ payload pad, 4 ≤ payload.length ∧ payload.length ≤ 255 ∧ pad.length = payload.length % 2 ∧
      bytes = 0x00 :: BitVec.ofNat 8 payload.length :: (payload ++ pad ++ rest) ∧ i = .raw payload) := by
  match bytes, h with
  | b0 :: b1 :: tail, h =>
    have hs := selectToken_spec b0 b1
    simp only [decode] at h
    cases hk : selectToken b0 b1 <;> simp only [hk] at hs h
    · obtain ⟨rfl, rfl⟩ := hs; injection h with h1 h2; subst h1 h2; simp
    · obtain ⟨rfl, rfl⟩ := hs; injection h with h1 h2; subst h1 h2; simp
    · obtain ⟨rfl, rfl⟩ := hs; injection h with h1 h2; subst h1 h2; simp
    · obtain ⟨rfl, rfl⟩ := hs
      match tail, h with
      | dx :: dy :: r, h => simp only [decodeRepos] at h; injection h with h1 h2; subst h1 h2; simp
    · obtain ⟨rfl, h4⟩ := hs
      have hlt := b1.isLt
      rw [decodeRaw_eq, rawTail] at h
      split at h
      · simp at h
      · injection h with h1 h2
        subst h1 h2
        have hlen : (tail.take b1.toNat).length = b1.toNat := by simp; omega
        refine .inr (.inr (.inr (.inr (.inr ⟨tail.take b1.toNat, (tail.drop b1.toNat).take (b1.toNat % 2),
          by omega, by omega, by simp; omega, ?_, rfl⟩))))
        rw [hlen, BitVec.ofNat_toNat, BitVec.setWidth_eq, ← List.drop_drop, List.append_assoc,
          List.take_append_drop, List.take_append_drop]
    · injection h with h1 h2; subst h1 h2
      exact .inl ⟨b0, b1, hs, rfl, rfl⟩

end Sys2Proof
end

