-- ==== Sys2Proof/Laws/Memory.lean ====
section
/-! SUPPORT. The laws of a byte memory: what a read gives after each operation, for every memory, and that every
operation keeps the canonical form. -/

namespace Sys2Proof.Machine

@[simp] theorem Memory.read_nil (a : Nat) : Memory.read [] a = Memory.unlisted := rfl

theorem Memory.read_cons (c : Host.Cell) (m : Memory) (a : Nat) :
    Memory.read (c :: m) a = if a = c.1 then c.2 else Memory.read m a := rfl

/-- Reading through a filter that looks at addresses only. -/
theorem Memory.read_filter (m : Memory) (p : Nat → Bool) (a : Nat) :
    Memory.read (m.filter fun c => p c.1) a = if p a then Memory.read m a else Memory.unlisted := by
  induction m with
  | nil => simp
  | cons c m ih =>
    by_cases hc : p c.1 = true <;> by_cases ha : a = c.1 <;> simp_all [Memory.read_cons]

theorem Memory.read_erase (m : Memory) (a x : Nat) :
    Memory.read (Memory.erase m a) x = if x = a then Memory.unlisted else Memory.read m x := by
  have h := Memory.read_filter m (fun k => decide (k ≠ a)) x
  by_cases hx : x = a <;> simp_all [Memory.erase]

theorem Memory.read_insert (m : Memory) (a : Nat) (v : Byte) (x : Nat) :
    Memory.read (Memory.insert m a v) x = if x = a then v else Memory.read m x := by
  induction m with
  | nil => simp [Memory.insert, Memory.read_cons]
  | cons c m ih =>
    obtain ⟨b, w⟩ := c
    simp only [Memory.insert]
    split
    · simp [Memory.read_cons]
    · split
      · subst_vars
        by_cases hx : x = b <;> simp [Memory.read_cons, hx]
      · by_cases hx : x = b
        · have : x ≠ a := by omega
          simp_all [Memory.read_cons]
        · simp [Memory.read_cons, hx, ih]

/-- What a read gives after a write: the byte written at its address, the old byte elsewhere. -/
theorem Memory.read_write (m : Memory) (a : Nat) (v : Byte) (x : Nat) :
    Memory.read (Memory.write m a v) x = if x = a then v else Memory.read m x := by
  unfold Memory.write
  split
  · next h => rw [Memory.read_erase, h]
  · exact Memory.read_insert m a v x

@[simp] theorem Memory.read_write_same (m : Memory) (a : Nat) (v : Byte) :
    Memory.read (Memory.write m a v) a = v := by
  simp [Memory.read_write]

theorem Memory.read_write_ne (m : Memory) (a : Nat) (v : Byte) (x : Nat) (h : x ≠ a) :
    Memory.read (Memory.write m a v) x = Memory.read m x := by
  simp [Memory.read_write, h]

/-- What a read gives after a run of writes. -/
theorem Memory.read_writeBytes (bytes : List Byte) (m : Memory) (a x : Nat) :
    Memory.read (Memory.writeBytes m a bytes) x =
      if a ≤ x then (bytes[x - a]?).getD (Memory.read m x) else Memory.read m x := by
  induction bytes generalizing m a with
  | nil => simp [Memory.writeBytes]
  | cons v rest ih =>
    rw [Memory.writeBytes, ih, Memory.read_write]
    obtain h | h | h := Nat.lt_trichotomy x a
    · simp [show ¬ a + 1 ≤ x by omega, show ¬ a ≤ x by omega, show x ≠ a by omega]
    · simp [h]
    · have : x - a = x - (a + 1) + 1 := by omega
      simp [show a + 1 ≤ x by omega, show a ≤ x by omega, show x ≠ a by omega, this]

@[simp] theorem Memory.length_slice (m : Memory) (a n : Nat) : (Memory.slice m a n).length = n := by
  induction n generalizing a with
  | zero => rfl
  | succ k ih => simp [Memory.slice, ih]

theorem Memory.slice_congr {m m' : Memory} {a n : Nat}
    (h : ∀ x, a ≤ x → x < a + n → Memory.read m x = Memory.read m' x) :
    Memory.slice m a n = Memory.slice m' a n := by
  induction n generalizing a with
  | zero => rfl
  | succ k ih =>
    rw [Memory.slice, Memory.slice, h a (by omega) (by omega), ih fun x h1 h2 => h x (by omega) (by omega)]

theorem Memory.read_zeroBelow (m : Memory) (n x : Nat) :
    Memory.read (Memory.zeroBelow m n) x = if x < n then Memory.unlisted else Memory.read m x := by
  have h := Memory.read_filter m (fun k => decide (n ≤ k)) x
  by_cases hx : n ≤ x
  · simp_all [Memory.zeroBelow, show ¬ x < n by omega]
  · simp_all [Memory.zeroBelow]

theorem Memory.read_zeroRange (m : Memory) (a n x : Nat) :
    Memory.read (Memory.zeroRange m a n) x =
      if a ≤ x ∧ x < a + n then Memory.unlisted else Memory.read m x := by
  have h := Memory.read_filter m (fun k => decide (k < a) || decide (a + n ≤ k)) x
  rw [Memory.zeroRange, h]
  by_cases h1 : a ≤ x <;> by_cases h2 : x < a + n <;> simp [h1, h2]

/-! ### The canonical form -/

theorem Memory.wf_nil : Memory.wf [] := ⟨List.Pairwise.nil, by simp⟩

theorem Memory.wf_filter {m : Memory} (h : Memory.wf m) (p : Host.Cell → Bool) : Memory.wf (m.filter p) :=
  ⟨h.1.filter p, fun c hc => h.2 c (List.mem_filter.mp hc).1⟩

theorem Memory.wf_erase {m : Memory} (h : Memory.wf m) (a : Nat) : Memory.wf (Memory.erase m a) :=
  Memory.wf_filter h _

theorem Memory.mem_insert {m : Memory} {a : Nat} {v : Byte} {c : Host.Cell} (h : c ∈ Memory.insert m a v) :
    c = (a, v) ∨ c ∈ m := by
  induction m with
  | nil => simpa [Memory.insert] using h
  | cons d m ih =>
    obtain ⟨b, w⟩ := d
    simp only [Memory.insert] at h
    split at h
    · simpa using h
    · split at h
      · rcases List.mem_cons.mp h with rfl | h
        · exact .inl rfl
        · exact .inr (List.mem_cons_of_mem _ h)
      · rcases List.mem_cons.mp h with rfl | h
        · exact .inr List.mem_cons_self
        · exact (ih h).imp_right (List.mem_cons_of_mem _)

theorem Memory.mem_erase {m : Memory} {a : Nat} {c : Host.Cell} (h : c ∈ Memory.erase m a) : c ∈ m :=
  (List.mem_filter.mp h).1

/-- A cell after a write is the one written, or was there before. -/
theorem Memory.mem_write {m : Memory} {a : Nat} {v : Byte} {c : Host.Cell} (h : c ∈ Memory.write m a v) :
    c = (a, v) ∨ c ∈ m := by
  unfold Memory.write at h
  split at h
  · exact .inr (Memory.mem_erase h)
  · exact Memory.mem_insert h

theorem Memory.wf_insert {m : Memory} (h : Memory.wf m) (a : Nat) {v : Byte} (hv : v ≠ Memory.unlisted) :
    Memory.wf (Memory.insert m a v) := by
  refine ⟨?_, fun c hc => ?_⟩
  · have hp := h.1
    clear h
    induction m with
    | nil => simp [Memory.insert]
    | cons d m ih =>
      obtain ⟨b, w⟩ := d
      obtain ⟨hb, hm⟩ := List.pairwise_cons.mp hp
      simp only [Memory.insert]
      split
      · next hab =>
        refine List.pairwise_cons.mpr ⟨fun c hc => ?_, hp⟩
        rcases List.mem_cons.mp hc with rfl | hc
        · exact hab
        · exact Nat.lt_trans hab (hb c hc)
      · split
        · next hab => exact List.pairwise_cons.mpr ⟨fun c hc => hab ▸ hb c hc, hm⟩
        · refine List.pairwise_cons.mpr ⟨fun c hc => ?_, ih hm⟩
          rcases Memory.mem_insert hc with rfl | hc
          · show b < a
            omega
          · exact hb c hc
  · rcases Memory.mem_insert hc with rfl | hc
    · exact hv
    · exact h.2 c hc

theorem Memory.wf_write {m : Memory} (h : Memory.wf m) (a : Nat) (v : Byte) : Memory.wf (Memory.write m a v) := by
  unfold Memory.write
  split
  · exact Memory.wf_erase h a
  · next hv => exact Memory.wf_insert h a hv

theorem Memory.wf_writeBytes (bytes : List Byte) {m : Memory} (h : Memory.wf m) (a : Nat) :
    Memory.wf (Memory.writeBytes m a bytes) := by
  induction bytes generalizing m a with
  | nil => exact h
  | cons v rest ih => exact ih (Memory.wf_write h a v) (a + 1)

theorem Memory.wf_zeroBelow {m : Memory} (h : Memory.wf m) (n : Nat) : Memory.wf (Memory.zeroBelow m n) :=
  Memory.wf_filter h _

theorem Memory.wf_zeroRange {m : Memory} (h : Memory.wf m) (a n : Nat) : Memory.wf (Memory.zeroRange m a n) :=
  Memory.wf_filter h _

theorem Memory.wf_write16 {m : Memory} (h : Memory.wf m) (i : Nat) (v : BitVec 16) :
    Memory.wf (Memory.write16 m i v) :=
  Memory.wf_write (Memory.wf_write h _ _) _ _

theorem Memory.wf_ofCells (cells : List Host.Cell) : Memory.wf (Memory.ofCells cells) := by
  unfold Memory.ofCells
  suffices h : ∀ m : Memory, Memory.wf m →
      Memory.wf (cells.foldl (fun m c => Memory.write m c.1 c.2) m) from h [] Memory.wf_nil
  induction cells with
  | nil => exact fun m h => h
  | cons c cells ih => exact fun m h => ih _ (Memory.wf_write h c.1 c.2)

theorem Memory.mem_ofCells {cells : List Host.Cell} {c : Host.Cell} (h : c ∈ Memory.ofCells cells) : c ∈ cells := by
  unfold Memory.ofCells at h
  suffices key : ∀ m : Memory, c ∈ cells.foldl (fun m c => Memory.write m c.1 c.2) m → c ∈ m ∨ c ∈ cells from
    (key [] h).resolve_left (by simp)
  clear h
  induction cells with
  | nil => exact fun m h => .inl h
  | cons d cells ih =>
    intro m h
    rcases ih _ h with h | h
    · rcases Memory.mem_write h with rfl | h
      · exact .inr List.mem_cons_self
      · exact .inl h
    · exact .inr (List.mem_cons_of_mem _ h)

end Sys2Proof.Machine
end

