-- ==== Sys2Proof/Laws/State.lean ====
section
/-! SUPPORT. One lemma per field of State and whole-unit update, true by definition: the units share nothing (R3). -/

namespace Sys2Proof.Machine

@[simp] theorem State.setRleu_params (s : State) (r : Rleu) : (s.setRleu r).params = s.params := rfl
@[simp] theorem State.setRleu_rleu (s : State) (r : Rleu) : (s.setRleu r).rleu = r := rfl
@[simp] theorem State.setRleu_adpu (s : State) (r : Rleu) : (s.setRleu r).adpu = s.adpu := rfl
@[simp] theorem State.setRleu_pending (s : State) (r : Rleu) : (s.setRleu r).pending = s.pending := rfl

@[simp] theorem State.setAdpu_params (s : State) (d : Adpu) : (s.setAdpu d).params = s.params := rfl
@[simp] theorem State.setAdpu_rleu (s : State) (d : Adpu) : (s.setAdpu d).rleu = s.rleu := rfl
@[simp] theorem State.setAdpu_adpu (s : State) (d : Adpu) : (s.setAdpu d).adpu = d := rfl
@[simp] theorem State.setAdpu_pending (s : State) (d : Adpu) : (s.setAdpu d).pending = s.pending := rfl

@[simp] theorem State.setPending_params (s : State) (e : List Event) : (s.setPending e).params = s.params := rfl
@[simp] theorem State.setPending_rleu (s : State) (e : List Event) : (s.setPending e).rleu = s.rleu := rfl
@[simp] theorem State.setPending_adpu (s : State) (e : List Event) : (s.setPending e).adpu = s.adpu := rfl
@[simp] theorem State.setPending_pending (s : State) (e : List Event) : (s.setPending e).pending = e := rfl

@[simp] theorem State.setRleu_setRleu (s : State) (r r' : Rleu) : (s.setRleu r).setRleu r' = s.setRleu r' := rfl
@[simp] theorem State.setAdpu_setAdpu (s : State) (d d' : Adpu) : (s.setAdpu d).setAdpu d' = s.setAdpu d' := rfl
@[simp] theorem State.setRleu_self (s : State) : s.setRleu s.rleu = s := rfl
@[simp] theorem State.setAdpu_self (s : State) : s.setAdpu s.adpu = s := rfl

/-- Updates of the two units commute (R3, R80). -/
theorem State.setAdpu_setRleu (s : State) (r : Rleu) (d : Adpu) :
    (s.setAdpu d).setRleu r = (s.setRleu r).setAdpu d := rfl

/-- A unit's update and an update of the pending events commute. -/
theorem State.setPending_setRleu (s : State) (r : Rleu) (e : List Event) :
    (s.setPending e).setRleu r = (s.setRleu r).setPending e := rfl

/-- A unit's update and an update of the pending events commute. -/
theorem State.setPending_setAdpu (s : State) (d : Adpu) (e : List Event) :
    (s.setPending e).setAdpu d = (s.setAdpu d).setPending e := rfl

end Sys2Proof.Machine
end

