-- ==== Sys2Proof/Laws/Ops.lean ====
section
/-! SUPPORT. One lemma for each shared operation of the units that says everything it can do; the proofs about
instructions cite these instead of unfolding the operations. -/

namespace Sys2Proof.Machine

/-! ### Capacities -/

@[simp] theorem withinCap_none (n : Nat) : withinCap none n = true := rfl

@[simp] theorem withinCap_some (c n : Nat) : withinCap (some c) n = decide (n ≤ c) := rfl

/-- What fits a capacity still fits it when it is smaller. -/
theorem withinCap_mono {cap : Option Nat} {m n : Nat} (h : withinCap cap n) (hmn : m ≤ n) : withinCap cap m := by
  cases cap with
  | none => rfl
  | some c => simp at h ⊢; omega

/-! ### The canvas and the pixel primitives -/

/-- An index of a pixel inside the canvas lies inside PIX (R63). -/
theorem pixIndex_lt {cw ch row col : Nat} (hr : row < ch) (hc : col < cw) : pixIndex cw row col < cw * ch := by
  have : (row + 1) * cw ≤ ch * cw := Nat.mul_le_mul_right cw hr
  rw [Nat.add_mul] at this
  unfold pixIndex
  rw [Nat.mul_comm cw ch]
  omega

/-- Two pixels inside the canvas's width have the same index only if they are the same pixel (R63). -/
theorem pixIndex_inj {cw r c r' c' : Nat} (hc : c < cw) (hc' : c' < cw) (h : pixIndex cw r c = pixIndex cw r' c') :
    r = r' ∧ c = c' := by
  have hcw : 0 < cw := by omega
  unfold pixIndex at h
  have h1 : (r * cw + c) / cw = r := by
    rw [Nat.mul_comm, Nat.mul_add_div hcw, Nat.div_eq_of_lt hc, Nat.add_zero]
  have h2 : (r' * cw + c') / cw = r' := by
    rw [Nat.mul_comm, Nat.mul_add_div hcw, Nat.div_eq_of_lt hc', Nat.add_zero]
  have hr : r = r' := by rw [← h1, ← h2, h]
  subst hr
  exact ⟨rfl, by omega⟩

/-- `PixWrite` changes PIX only, and raises exactly outside the canvas (R65). -/
theorem Rleu.pixWrite_eq (r : Rleu) (row col : Nat) (v : Byte) :
    r.pixWrite row col v =
      if row < r.ch ∧ col < r.cw then some { r with pix := Memory.write r.pix (pixIndex r.cw row col) v } else none := by
  unfold Rleu.pixWrite
  by_cases h : row < r.ch ∧ col < r.cw
  · rw [if_neg (by omega), if_pos h]
  · rw [if_pos (by omega), if_neg h]

/-- A run of `PixWrite`s in one row: it raises exactly if some pixel lies outside the canvas, and else writes the pixels
at rising indices and changes PIX only (R65, R151, R162). -/
theorem Rleu.pixWriteRun_eq (pixels : List Byte) (r : Rleu) (row col : Nat) :
    r.pixWriteRun row col pixels =
      if pixels = [] ∨ (row < r.ch ∧ col + pixels.length ≤ r.cw) then
        some { r with pix := Memory.writeBytes r.pix (pixIndex r.cw row col) pixels }
      else none := by
  induction pixels generalizing r col with
  | nil => simp [Rleu.pixWriteRun, Memory.writeBytes]
  | cons v rest ih =>
    rw [Rleu.pixWriteRun, Rleu.pixWrite_eq]
    by_cases h : row < r.ch ∧ col < r.cw
    · simp only [if_pos h, ih]
      have hi : pixIndex r.cw row (col + 1) = pixIndex r.cw row col + 1 := by simp [pixIndex, Nat.add_assoc]
      by_cases hrest : rest = []
      · subst hrest
        rw [if_pos (.inl rfl), if_pos (.inr (by simp; omega))]
        rfl
      · have hcond : (rest = [] ∨ row < r.ch ∧ col + 1 + rest.length ≤ r.cw) ↔
            (v :: rest = [] ∨ row < r.ch ∧ col + (v :: rest).length ≤ r.cw) := by
          simp [hrest]; omega
        simp only [Rleu.ch, Rleu.cw] at *
        simp only [hcond, hi]
        rfl
    · simp only [if_neg h]
      rw [if_neg]
      simp
      omega

/-- Completing a literal run under a clear flag changes nothing (R152). -/
theorem Rleu.completeLiteral_clear {p : Params} {r : Rleu} (h : r.tArmed = false) : r.completeLiteral p = some r := by
  unfold Rleu.completeLiteral
  rw [h]
  rfl

/-- Completing a literal run under a set flag appends one record and clears the flag, where TRL has room (R152). -/
theorem Rleu.completeLiteral_armed {p : Params} {r : Rleu} (h : r.tArmed = true)
    (hc : withinCap p.trlCap (r.trlCount + 1) = true) :
    r.completeLiteral p =
      some { r with trl := r.trl ++ [⟨r.tRow, r.tCol, r.col - r.tCol⟩], tArmed := false } := by
  unfold Rleu.completeLiteral Rleu.trlAppend
  rw [if_pos h, if_pos hc]
  rfl

/-- Completing a literal run under a set flag raises where TRL is full (R66, R152). -/
theorem Rleu.completeLiteral_full {p : Params} {r : Rleu} (h : r.tArmed = true)
    (hc : withinCap p.trlCap (r.trlCount + 1) = false) : r.completeLiteral p = none := by
  unfold Rleu.completeLiteral Rleu.trlAppend
  rw [if_pos h, if_neg (by rw [hc]; simp)]
  rfl

/-! ### The last-row test -/

/-- The last-row test changes RSTATE only (R154). -/
theorem Rleu.lastRowTest_eq (r : Rleu) :
    r.lastRowTest = { r with rstate := if r.row ≥ r.rowLimit then .compose else r.rstate } := by
  unfold Rleu.lastRowTest
  split <;> rfl

/-! ### The composite step -/

/-- What a read of PIX gives after a span was copied from KEY (R182). -/
theorem read_copySpan (n : Nat) (key pix : Memory) (a x : Nat) :
    Memory.read (copySpan key pix a n) x =
      if a ≤ x ∧ x < a + n then Memory.read key x else Memory.read pix x := by
  induction n generalizing pix a with
  | zero => rw [copySpan, if_neg (by omega)]
  | succ k ih =>
    rw [copySpan, ih, Memory.read_write]
    by_cases hx : x = a
    · subst hx
      simp
    · by_cases h : a ≤ x ∧ x < a + (k + 1)
      · rw [if_pos (by omega), if_pos h]
      · rw [if_neg (by omega), if_neg h, if_neg hx]

/-- What a read of PIX gives after run compositing: KEY inside the records, the old pixel outside (R182). -/
theorem read_composeRuns (records : List TrlRecord) (key pix : Memory) (cw x : Nat) :
    Memory.read (composeRuns key pix cw records) x =
      if records.any (fun t => TrlRecord.covers cw t x) then Memory.read key x else Memory.read pix x := by
  induction records generalizing pix with
  | nil => simp [composeRuns]
  | cons t rest ih =>
    rw [composeRuns, ih, read_copySpan]
    have hc : TrlRecord.covers cw t x = true ↔
        pixIndex cw t.row t.col ≤ x ∧ x < pixIndex cw t.row t.col + t.len := by simp [TrlRecord.covers]
    have hany : ((t :: rest).any fun t => TrlRecord.covers cw t x) = true ↔
        TrlRecord.covers cw t x = true ∨ (rest.any fun t => TrlRecord.covers cw t x) = true := by simp
    simp only [← hc]
    by_cases h : (rest.any fun t => TrlRecord.covers cw t x) = true
    · rw [if_pos h, if_pos (hany.mpr (.inr h))]
    · by_cases ht : TrlRecord.covers cw t x = true
      · rw [if_neg h, if_pos ht, if_pos (hany.mpr (.inl ht))]
      · rw [if_neg h, if_neg ht, if_neg fun hn => (hany.mp hn).elim ht h]

/-- What a read of PIX gives after the fallback rule: KEY where the pixel was the background (R183). -/
theorem read_composeBackground (n : Nat) (key pix : Memory) (a x : Nat) :
    Memory.read (composeBackground key pix a n) x =
      if a ≤ x ∧ x < a + n ∧ Memory.read pix x = bgIndex then Memory.read key x else Memory.read pix x := by
  induction n generalizing pix a with
  | zero => rw [composeBackground, if_neg (by omega)]
  | succ k ih =>
    rw [composeBackground]
    by_cases hp : Memory.read pix a = bgIndex
    · rw [if_pos hp, ih, Memory.read_write]
      by_cases hx : x = a
      · subst hx
        simp [hp]
      · have h : (a + 1 ≤ x ∧ x < a + 1 + k) ↔ (a ≤ x ∧ x < a + (k + 1)) := by omega
        simp only [if_neg hx, ← and_assoc, h]
    · rw [if_neg hp, ih]
      by_cases hx : x = a
      · subst hx
        simp [hp]
      · have h : (a + 1 ≤ x ∧ x < a + 1 + k) ↔ (a ≤ x ∧ x < a + (k + 1)) := by omega
        simp only [← and_assoc, h]

theorem wf_copySpan (n : Nat) (key : Memory) {pix : Memory} (h : Memory.wf pix) (a : Nat) :
    Memory.wf (copySpan key pix a n) := by
  induction n generalizing pix a with
  | zero => exact h
  | succ k ih => exact ih (Memory.wf_write h _ _) _

theorem wf_composeRuns (records : List TrlRecord) (key : Memory) {pix : Memory} (h : Memory.wf pix) (cw : Nat) :
    Memory.wf (composeRuns key pix cw records) := by
  induction records generalizing pix with
  | nil => exact h
  | cons t rest ih => exact ih (wf_copySpan _ _ h _)

theorem wf_composeBackground (n : Nat) (key : Memory) {pix : Memory} (h : Memory.wf pix) (a : Nat) :
    Memory.wf (composeBackground key pix a n) := by
  induction n generalizing pix a with
  | zero => exact h
  | succ k ih =>
    rw [composeBackground]
    split
    · exact ih (Memory.wf_write h _ _) _
    · exact ih h _

/-- The composite step keeps the canonical form of PIX. -/
theorem Rleu.wf_composedPix {r : Rleu} (h : Memory.wf r.pix) : Memory.wf r.composedPix := by
  unfold Rleu.composedPix
  split
  · split
    · exact wf_composeRuns _ _ h _
    · exact wf_composeBackground _ _ h _
  · exact h

/-! ### ADPU -/

/-- `clamp` gives a value between its bounds (R14). -/
theorem clamp_bounds {v lo hi : Int} (h : lo ≤ hi) : lo ≤ clamp v lo hi ∧ clamp v lo hi ≤ hi := by
  unfold clamp
  split
  · omega
  · split <;> omega

/-- The predictor stays within 16 bits (R44, R210). -/
theorem nextPredictor_bounds (predictor : Int) (c : Code) (step : Nat) :
    -32768 ≤ nextPredictor predictor c step ∧ nextPredictor predictor c step ≤ 32767 :=
  clamp_bounds (by omega)

/-- The step-index update in integers: no value is lost in the 89 values of the register (R211). -/
theorem nextStepIndex_val (i : Fin 89) (c : Code) :
    ((nextStepIndex i c).val : Int) = clamp ((i.val : Int) + indexDelta (codeMagnitude c)) 0 88 := by
  have h := clamp_bounds (v := (i.val : Int) + indexDelta (codeMagnitude c)) (lo := 0) (hi := 88) (by omega)
  unfold nextStepIndex
  rw [Fin.val_ofNat, Nat.mod_eq_of_lt (by omega)]
  omega

/-- A sample read back is the sample written, and every other sample is as before (R68). -/
theorem read16_write16 (m : Memory) (i j : Nat) (v : BitVec 16) :
    Memory.read16 (Memory.write16 m i v) j = if j = i then v else Memory.read16 m j := by
  unfold Memory.read16 Memory.write16
  by_cases h : j = i
  · subst h
    simp only [Memory.read_write, if_true]
    rw [if_neg (by omega)]
    ext k hk
    rw [BitVec.getElem_append]
    split
    · simp [BitVec.getLsbD_eq_getElem hk]
    · rw [BitVec.getElem_extractLsb', ← BitVec.getLsbD_eq_getElem]
      congr 1
      omega
  · simp only [Memory.read_write]
    rw [if_neg (by omega), if_neg (by omega), if_neg (by omega), if_neg (by omega), if_neg h]

end Sys2Proof.Machine
end

