-- ==== Sys2Proof/Laws/Exec.lean ====
section
/-! SUPPORT. One lemma for each meaning with tests in it that says everything it can answer, with the shared operations
already taken apart; the meanings without tests are plain record updates. -/

namespace Sys2Proof.Machine

/-- The three answers of RAW, in the order of its tests (R162, R239). -/
theorem execRaw_eq (payload : List Byte) (s : State) :
    execRaw payload s =
      if s.rleu.inLen < s.rleu.pos + rawLength payload.length then tokenError s .truncatedStream
      else if payload = [] ∨ (s.rleu.row < s.rleu.ch ∧ s.rleu.col + payload.length ≤ s.rleu.cw) then
        .next (s.setRleu { s.rleu with
          pix := Memory.writeBytes s.rleu.pix (pixIndex s.rleu.cw s.rleu.row s.rleu.col) payload
          col := s.rleu.col + payload.length
          pos := s.rleu.pos + rawLength payload.length })
      else tokenError s .writeOutOfCanvas := by
  unfold execRaw
  by_cases h : s.rleu.inLen < s.rleu.pos + rawLength payload.length
  · simp only [gt_iff_lt, if_pos h]
  · simp only [gt_iff_lt, if_neg h, Rleu.pixWriteRun_eq]
    by_cases hc : payload = [] ∨ (s.rleu.row < s.rleu.ch ∧ s.rleu.col + payload.length ≤ s.rleu.cw)
    · simp only [if_pos hc]
    · simp only [if_neg hc]

/-- The answers of LIT, in the order of its tests (R151, R152, R239). -/
theorem execLit_eq (n colour : Byte) (s : State) :
    execLit n colour s =
      if zext n = 0 ∨ (s.rleu.row < s.rleu.ch ∧ s.rleu.col + zext n ≤ s.rleu.cw) then
        if s.rleu.tArmed = false then
          .next (s.setRleu { s.rleu with
            pix := Memory.writeBytes s.rleu.pix (pixIndex s.rleu.cw s.rleu.row s.rleu.col)
              (List.replicate (zext n) colour)
            col := s.rleu.col + zext n
            pos := s.rleu.pos + 2 })
        else if withinCap s.params.trlCap (s.rleu.trlCount + 1) then
          .next (s.setRleu { s.rleu with
            pix := Memory.writeBytes s.rleu.pix (pixIndex s.rleu.cw s.rleu.row s.rleu.col)
              (List.replicate (zext n) colour)
            col := s.rleu.col + zext n
            pos := s.rleu.pos + 2
            trl := s.rleu.trl ++ [⟨s.rleu.tRow, s.rleu.tCol, s.rleu.col + zext n - s.rleu.tCol⟩]
            tArmed := false })
        else tokenError s .allocationFailure
      else tokenError s .writeOutOfCanvas := by
  unfold execLit
  have hrun := Rleu.pixWriteRun_eq (List.replicate (zext n) colour) s.rleu s.rleu.row s.rleu.col
  have hiff : (List.replicate (zext n) colour = [] ∨
      (s.rleu.row < s.rleu.ch ∧ s.rleu.col + (List.replicate (zext n) colour).length ≤ s.rleu.cw)) ↔
      (zext n = 0 ∨ (s.rleu.row < s.rleu.ch ∧ s.rleu.col + zext n ≤ s.rleu.cw)) := by
    rw [List.length_replicate, List.replicate_eq_nil_iff]
  by_cases h : zext n = 0 ∨ (s.rleu.row < s.rleu.ch ∧ s.rleu.col + zext n ≤ s.rleu.cw)
  · rw [if_pos (hiff.mpr h)] at hrun
    simp only [hrun]
    rw [if_pos h]
    by_cases ha : s.rleu.tArmed = false
    · rw [if_pos ha, Rleu.completeLiteral_clear]
      exact ha
    · have ha' : s.rleu.tArmed = true := by simpa using ha
      by_cases hc : withinCap s.params.trlCap (s.rleu.trlCount + 1) = true
      · rw [if_neg ha, if_pos hc, Rleu.completeLiteral_armed]
        · exact ha'
        · exact hc
      · rw [if_neg ha, if_neg hc, Rleu.completeLiteral_full]
        · exact ha'
        · exact Bool.eq_false_iff.mpr hc
  · rw [if_neg fun hc => h (hiff.mp hc)] at hrun
    simp only [hrun]
    rw [if_neg h]

/-- EOR without the last-row test's definition (R153, R154). -/
theorem execEor_eq (s : State) :
    execEor s = .next (s.setRleu { s.rleu with
      row := s.rleu.row + 1
      col := s.rleu.frameX.toNat
      tArmed := false
      pos := s.rleu.pos + 2
      rstate := if s.rleu.row + 1 ≥ s.rleu.rowLimit then .compose else s.rleu.rstate }) := by
  unfold execEor
  simp only [Rleu.lastRowTest_eq]
  rfl

/-- The pixels of a run of one colour (R151). -/
theorem read_writeBytes_replicate (m : Memory) (i n : Nat) (colour : Byte) (a : Nat) :
    Memory.read (Memory.writeBytes m i (List.replicate n colour)) a =
      if i ≤ a ∧ a < i + n then colour else Memory.read m a := by
  rw [Memory.read_writeBytes]
  by_cases h : i ≤ a
  · by_cases h2 : a < i + n
    · rw [if_pos h, if_pos ⟨h, h2⟩, List.getElem?_replicate, if_pos (by omega), Option.getD_some]
    · rw [if_pos h, if_neg (by omega), List.getElem?_replicate, if_neg (by omega), Option.getD_none]
  · rw [if_neg h, if_neg (by omega)]

/-- A run of writes leaves a byte outside it as it was (R151, R162). -/
theorem read_writeBytes_outside {m : Memory} {i a : Nat} {bytes : List Byte} (h : a < i ∨ i + bytes.length ≤ a) :
    Memory.read (Memory.writeBytes m i bytes) a = Memory.read m a := by
  rw [Memory.read_writeBytes]
  split
  · rw [List.getElem?_eq_none (by omega), Option.getD_none]
  · rfl

/-- What a token that does not raise does to the registers: `t` is RLEU after token `i` in RLEU `r` (R164). PIX is the
old one with a run of bytes written in the cursor's row, inside the canvas. -/
structure TokenDone (p : Params) (i : Instr) (r t : Rleu) : Prop where
  pix : ∃ bytes, t.pix = Memory.writeBytes r.pix (pixIndex r.cw r.row r.col) bytes ∧
    (bytes ≠ [] → r.row < r.ch ∧ r.col + bytes.length ≤ r.cw ∧ t.row = r.row ∧ t.col = r.col + bytes.length)
  effect :
    (i = .eor ∧ t = { r with
        row := r.row + 1, col := r.frameX.toNat, tArmed := false, pos := r.pos + 2,
        rstate := if r.row + 1 ≥ r.rowLimit then .compose else r.rstate }) ∨
    (i = .eoi ∧ t = { r with tArmed := false, pos := r.pos + 2, rstate := .compose }) ∨
    (i = .trn ∧ t = { r with tArmed := true, tRow := r.row, tCol := r.col, pos := r.pos + 2 }) ∨
    (∃ dx dy, i = .repos dx dy ∧ r.pos + 4 ≤ r.inLen ∧
      t = { r with col := r.col + zext dx, row := r.row + zext dy, pos := r.pos + 4 }) ∨
    (∃ payload, i = .raw payload ∧ r.pos + rawLength payload.length ≤ r.inLen ∧
      (payload = [] ∨ (r.row < r.ch ∧ r.col + payload.length ≤ r.cw)) ∧
      t = { r with
        pix := Memory.writeBytes r.pix (pixIndex r.cw r.row r.col) payload,
        col := r.col + payload.length, pos := r.pos + rawLength payload.length }) ∨
    (∃ n colour, i = .lit n colour ∧ (zext n = 0 ∨ (r.row < r.ch ∧ r.col + zext n ≤ r.cw)) ∧
      ((r.tArmed = false ∧ t = { r with
          pix := Memory.writeBytes r.pix (pixIndex r.cw r.row r.col) (List.replicate (zext n) colour),
          col := r.col + zext n, pos := r.pos + 2 }) ∨
       (r.tArmed = true ∧ withinCap p.trlCap (r.trlCount + 1) = true ∧ t = { r with
          pix := Memory.writeBytes r.pix (pixIndex r.cw r.row r.col) (List.replicate (zext n) colour),
          col := r.col + zext n, pos := r.pos + 2,
          trl := r.trl ++ [⟨r.tRow, r.tCol, r.col + zext n - r.tCol⟩], tArmed := false })))

/-- A token either raises one of three errors or does what R164 lists; it never faults or refuses. -/
theorem exec_token_cases {i : Instr} (hi : i.isToken = true) (s : State) :
    (∃ e, (e = .truncatedStream ∨ e = .writeOutOfCanvas ∨ e = .allocationFailure) ∧ exec i s = tokenError s e) ∨
    ∃ r, exec i s = .next (s.setRleu r) ∧ TokenDone s.params i s.rleu r := by
  have nothing : ∃ bytes, s.rleu.pix =
      Memory.writeBytes s.rleu.pix (pixIndex s.rleu.cw s.rleu.row s.rleu.col) bytes ∧ bytes = [] := ⟨[], rfl, rfl⟩
  obtain ⟨bytes, hb, hn⟩ := nothing
  cases i with
  | hdr => simp [Instr.isToken] at hi
  | sample c => simp [Instr.isToken] at hi
  | eor => exact .inr ⟨_, execEor_eq s, ⟨bytes, hb, fun h => absurd hn h⟩, .inl ⟨rfl, rfl⟩⟩
  | eoi => exact .inr ⟨_, rfl, ⟨bytes, hb, fun h => absurd hn h⟩, .inr (.inl ⟨rfl, rfl⟩)⟩
  | trn => exact .inr ⟨_, rfl, ⟨bytes, hb, fun h => absurd hn h⟩, .inr (.inr (.inl ⟨rfl, rfl⟩))⟩
  | repos dx dy =>
    by_cases h : s.rleu.pos + 4 > s.rleu.inLen
    · exact .inl ⟨_, .inl rfl, if_pos h⟩
    · exact .inr ⟨_, if_neg h, ⟨bytes, hb, fun h => absurd hn h⟩,
        .inr (.inr (.inr (.inl ⟨dx, dy, rfl, by omega, rfl⟩)))⟩
  | raw payload =>
    have he : exec (.raw payload) s = execRaw payload s := rfl
    rw [execRaw_eq] at he
    by_cases h : s.rleu.inLen < s.rleu.pos + rawLength payload.length
    · exact .inl ⟨_, .inl rfl, he.trans (if_pos h)⟩
    · rw [if_neg h] at he
      by_cases hc : payload = [] ∨ (s.rleu.row < s.rleu.ch ∧ s.rleu.col + payload.length ≤ s.rleu.cw)
      · rw [if_pos hc] at he
        exact .inr ⟨_, he, ⟨payload, rfl, fun hne => ⟨(hc.resolve_left hne).1, (hc.resolve_left hne).2, rfl, rfl⟩⟩,
          .inr (.inr (.inr (.inr (.inl ⟨payload, rfl, by omega, hc, rfl⟩))))⟩
      · rw [if_neg hc] at he
        exact .inl ⟨_, .inr (.inl rfl), he⟩
  | lit n colour =>
    have he : exec (.lit n colour) s = execLit n colour s := rfl
    rw [execLit_eq] at he
    by_cases hc : zext n = 0 ∨ (s.rleu.row < s.rleu.ch ∧ s.rleu.col + zext n ≤ s.rleu.cw)
    · rw [if_pos hc] at he
      have hne : List.replicate (zext n) colour ≠ [] → s.rleu.row < s.rleu.ch ∧ s.rleu.col + zext n ≤ s.rleu.cw :=
        fun h => hc.resolve_left fun h0 => h (by rw [h0]; rfl)
      by_cases ha : s.rleu.tArmed = false
      · rw [if_pos ha] at he
        exact .inr ⟨_, he, ⟨List.replicate (zext n) colour, rfl, fun h => ⟨(hne h).1,
          by rw [List.length_replicate]; exact (hne h).2, rfl, by rw [List.length_replicate]⟩⟩,
          .inr (.inr (.inr (.inr (.inr ⟨n, colour, rfl, hc, .inl ⟨ha, rfl⟩⟩))))⟩
      · rw [if_neg ha] at he
        by_cases hw : withinCap s.params.trlCap (s.rleu.trlCount + 1) = true
        · rw [if_pos hw] at he
          exact .inr ⟨_, he, ⟨List.replicate (zext n) colour, rfl, fun h => ⟨(hne h).1,
            by rw [List.length_replicate]; exact (hne h).2, rfl, by rw [List.length_replicate]⟩⟩,
            .inr (.inr (.inr (.inr (.inr ⟨n, colour, rfl, hc, .inr ⟨by simpa using ha, hw, rfl⟩⟩))))⟩
        · rw [if_neg hw] at he
          exact .inl ⟨_, .inr (.inr rfl), he⟩
    · rw [if_neg hc] at he
      exact .inl ⟨_, .inr (.inl rfl), he⟩

end Sys2Proof.Machine
end

