-- ==== Sys2Proof/Laws/JobControl.lean ====
section
/-! SUPPORT. One lemma for each part of RLEU's job-start step, for the free contents of the output memories, and for
when the units accept moves and reads of HOST. -/

namespace Sys2Proof.Machine

/-! ### The job-start step -/

/-- A job whose checks pass begins (R125). -/
theorem Rleu.jobStart_begin {p : Params} {r : Rleu} (hg : r.geometryOverflows = false)
    (hk : r.keySizeMismatches = false) (hc : withinCap p.pixCap r.jobPixels = true) :
    Rleu.jobStart p r = r.jobBegin := by
  simp [Rleu.jobStart, hg, hk, hc]

/-- A job start raises one of three errors or begins the job (R121 to R125). -/
theorem Rleu.jobStart_cases (p : Params) (r : Rleu) :
    (∃ e, (e = .geometryOverflow ∨ e = .sizeMismatch ∨ e = .allocationFailure) ∧
      Rleu.jobStart p r = Rleu.jobError p r e) ∨
    (r.geometryOverflows = false ∧ r.keySizeMismatches = false ∧ withinCap p.pixCap r.jobPixels = true ∧
      Rleu.jobStart p r = r.jobBegin) := by
  unfold Rleu.jobStart
  cases r.geometryOverflows
  · cases r.keySizeMismatches
    · cases withinCap p.pixCap r.jobPixels
      · exact .inl ⟨_, .inr (.inr rfl), rfl⟩
      · exact .inr ⟨rfl, rfl, rfl, rfl⟩
    · exact .inl ⟨_, .inr (.inl rfl), rfl⟩
  · exact .inl ⟨_, .inl rfl, rfl⟩

/-- The header test changes POS only (R127). -/
theorem Rleu.headerTest_eq (r : Rleu) :
    r.headerTest = { r with pos := if r.header.isSome then 2 else r.pos } := by
  unfold Rleu.headerTest Rleu.skipHeader
  cases r.header <;> rfl

/-- Everything a job that begins leaves (R32, R124 to R128). -/
theorem Rleu.jobBegin_eq (r : Rleu) :
    r.jobBegin = { r.jobInit with
      pos := if 2 < r.inLen ∧ r.header.isSome then 2 else 0
      rstate := if r.inLen ≤ 2 then .done else if r.frameH = 0 then .compose else .run } := by
  have h : r.jobInit.header = r.header := rfl
  unfold Rleu.jobBegin
  simp only [Rleu.headerTest_eq, h]
  by_cases hl : r.inLen ≤ 2
  · rw [if_pos hl, if_pos hl, if_neg (by omega)]
    rfl
  · rw [if_neg hl, if_neg hl]
    have hl : 2 < r.inLen := by omega
    simp only [hl, true_and]
    by_cases hf : r.frameH = 0
    · rw [if_pos hf, if_pos hf]
      rfl
    · rw [if_neg hf, if_neg hf]
      rfl

/-! ### Free contents of the output memories -/

/-- Free contents of PIX are in canonical form (R237). -/
theorem wf_anyPix (p : Params) (n : Nat) : Memory.wf (anyPix p n) :=
  Memory.wf_ofCells _

/-- Free contents of PIX keep to its capacity (R12, R237). -/
theorem withinCap_anyPix {p : Params} {n : Nat} {c : Host.Cell} (h : c ∈ anyPix p n) :
    withinCap p.pixCap (c.1 + 1) = true := by
  simpa using (List.mem_filter.mp (Memory.mem_ofCells h)).2

/-- Free contents of PCM are in canonical form (R237). -/
theorem wf_anyPcm (p : Params) (n : Nat) : Memory.wf (anyPcm p n) :=
  Memory.wf_ofCells _

/-- Free contents of PCM keep to its capacity in samples (R12, R237). -/
theorem withinCap_anyPcm {p : Params} {n : Nat} {c : Host.Cell} (h : c ∈ anyPcm p n) :
    withinCap p.pcmCap (c.1 / 2 + 1) = true := by
  simpa using (List.mem_filter.mp (Memory.mem_ofCells h)).2

/-- Free contents of TRL keep to its capacity (R39, R237). -/
theorem withinCap_anyTrl (p : Params) (n : Nat) : withinCap p.trlCap (anyTrl p n).length = true := by
  unfold anyTrl
  cases p.trlCap with
  | none => rfl
  | some c => simp

/-! ### When HOST may act -/

/-- RLEU accepts exactly outside RUN and COMPOSE (R30, R69). -/
theorem Rleu.accepts_iff (r : Rleu) : r.accepts = true ↔ r.rstate ≠ .run ∧ r.rstate ≠ .compose := by
  unfold Rleu.accepts
  cases r.rstate <;> decide

/-- ADPU accepts exactly outside RUN (R30, R69). -/
theorem Adpu.accepts_iff (d : Adpu) : d.accepts = true ↔ d.astate ≠ .run := by
  unfold Adpu.accepts
  cases d.astate <;> decide

end Sys2Proof.Machine
end

