-- ==== Sys2Proof/Laws/PerInstr.lean ====
section
/-! SUPPORT. What holds of every instruction as syntax, one lemma per constructor: the size of its encoding. -/

namespace Sys2Proof.Laws.EncodeLength

/-- A well-formed instruction's encoding has the bytes its length says, a whole byte for the half-byte code SAMPLE; the
length is even, so POS stays even, and at most that of the longest token (R42 (a), R91, R98). -/
def Statement (i : Instr) : Prop :=
  i.wellFormed = true →
    (encode i).length = max 1 i.lengthBytes ∧ i.lengthBytes % 2 = 0 ∧ i.lengthBytes ≤ maxTokenBytes

theorem hdr : Statement .hdr := by
  intro _
  decide

theorem eor : Statement .eor := by
  intro _
  decide

theorem eoi : Statement .eoi := by
  intro _
  decide

theorem trn : Statement .trn := by
  intro _
  decide

theorem repos (dx dy : Byte) : Statement (.repos dx dy) := by
  intro _
  simp [encode, Instr.lengthBytes, maxTokenBytes]

theorem raw (payload : List Byte) : Statement (.raw payload) := by
  intro h
  simp only [Instr.wellFormed, Bool.and_eq_true, decide_eq_true_eq] at h
  simp only [encode, padBytes, Instr.lengthBytes, maxTokenBytes, List.length_cons, List.length_append,
    List.length_replicate]
  omega

theorem lit (n colour : Byte) : Statement (.lit n colour) := by
  intro _
  simp [encode, Instr.lengthBytes, maxTokenBytes]

theorem sample (c : Code) : Statement (.sample c) := by
  intro _
  simp [encode, Instr.lengthBytes, maxTokenBytes]

end Sys2Proof.Laws.EncodeLength
end

