-- ==== Sys2Proof/Laws/Step.lean ====
section
/-! SUPPORT. What a turn of each unit can do, said once: every invariant is derived from these. -/

namespace Sys2Proof.Machine

/-- A fetched token is a well-formed token that lies below IN_LEN (R129, R136). -/
theorem Rleu.fetch_token {r : Rleu} {i : Instr} {rest : List Byte} (h : r.fetch = .token i rest) :
    i.wellFormed = true ∧ i.isToken = true ∧ r.pos + i.lengthBytes ≤ r.inLen := by
  have hl : r.remaining.length ≤ r.inLen - r.pos := by
    unfold Rleu.remaining
    rw [Memory.length_slice]
    omega
  have hpos : 0 < r.remaining.length → r.remaining.length + r.pos ≤ r.inLen := by omega
  rcases decode_token_cases h with ⟨n, c, hn, he, rfl⟩ | ⟨he, rfl⟩ | ⟨he, rfl⟩ | ⟨he, rfl⟩ | ⟨dx, dy, he, rfl⟩ |
    ⟨payload, pad, h4, h255, hp, he, rfl⟩ <;> rw [he] at hpos
  · exact ⟨by simpa [Instr.wellFormed] using hn, rfl, by simp [Instr.lengthBytes] at hpos ⊢; omega⟩
  · exact ⟨rfl, rfl, by simp [Instr.lengthBytes] at hpos ⊢; omega⟩
  · exact ⟨rfl, rfl, by simp [Instr.lengthBytes] at hpos ⊢; omega⟩
  · exact ⟨rfl, rfl, by simp [Instr.lengthBytes] at hpos ⊢; omega⟩
  · exact ⟨rfl, rfl, by simp [Instr.lengthBytes] at hpos ⊢; omega⟩
  · exact ⟨by simp [Instr.wellFormed]; omega, rfl, by simp [Instr.lengthBytes] at hpos ⊢; omega⟩

/-- Input is exhausted exactly when POS has reached IN_LEN (R130). -/
theorem Rleu.fetch_exhausted_iff (r : Rleu) : r.fetch = .exhausted ↔ r.inLen ≤ r.pos := by
  unfold Rleu.fetch Rleu.remaining
  obtain h | h := Nat.lt_or_ge r.pos r.inLen
  · obtain ⟨n, hn⟩ : ∃ n, min (r.inLen - r.pos) maxTokenBytes = n + 1 :=
      ⟨min (r.inLen - r.pos) maxTokenBytes - 1, by unfold maxTokenBytes; omega⟩
    rw [hn]
    refine ⟨fun he => absurd he ?_, fun he => by omega⟩
    cases n with
    | zero => simp [Memory.slice, decode]
    | succ n =>
      simp only [Memory.slice, decode]
      split
      · simp
      · simp
      · simp
      · simp
      · unfold decodeRepos
        split <;> simp
      · rw [decodeRaw_eq]
        split <;> simp
  · rw [Nat.sub_eq_zero_of_le h]
    simp [Memory.slice, decode, h]

/-- The fetch looks at bytes of IN from POS up to IN_LEN only (R61, R136). -/
theorem Rleu.fetch_congr {r r' : Rleu} (hpos : r.pos = r'.pos) (hlen : r.inLen = r'.inLen)
    (h : ∀ a, r.pos ≤ a → a < r.inLen → Memory.read r.inMem a = Memory.read r'.inMem a) : r.fetch = r'.fetch := by
  unfold Rleu.fetch Rleu.remaining
  rw [← hpos, ← hlen]
  congr 1
  exact Memory.slice_congr fun a h1 h2 => h a h1 (by omega)

/-- Everything RLEU's turn can do in RUN (R129 to R132). -/
theorem rleuTurn_run_cases {s : State} (h : s.rleu.rstate = .run) :
    (s.rleu.inLen ≤ s.rleu.pos ∧ s.rleu.fetch = .exhausted ∧ rleuTurn s = .next (s.setRleu s.rleu.endPass)) ∨
    (∃ e, (e = .truncatedStream ∨ e = .writeOutOfCanvas ∨ e = .allocationFailure) ∧
      s.rleu.pos < s.rleu.inLen ∧ rleuTurn s = tokenError s e) ∨
    (∃ i rest r, s.rleu.fetch = .token i rest ∧ i.wellFormed = true ∧ s.rleu.pos + i.lengthBytes ≤ s.rleu.inLen ∧
      rleuTurn s = .next (s.setRleu r) ∧ TokenDone s.params i s.rleu r) := by
  have ht : rleuTurn s = tokenStep s := by unfold rleuTurn; rw [h]
  rw [ht]
  unfold tokenStep
  have hlt : s.rleu.fetch ≠ .exhausted → s.rleu.pos < s.rleu.inLen := fun hn =>
    Nat.lt_of_not_le fun hle => hn ((Rleu.fetch_exhausted_iff _).mpr hle)
  cases hf : s.rleu.fetch with
  | exhausted => exact .inl ⟨(Rleu.fetch_exhausted_iff _).mp hf, rfl, rfl⟩
  | truncated => exact .inr (.inl ⟨_, .inl rfl, hlt (by rw [hf]; simp), rfl⟩)
  | token i rest =>
    obtain ⟨hw, hi, hl⟩ := Rleu.fetch_token hf
    rcases exec_token_cases hi s with ⟨e, he, hx⟩ | ⟨r, hx, hr⟩
    · exact .inr (.inl ⟨e, he, hlt (by rw [hf]; simp), hx⟩)
    · exact .inr (.inr ⟨i, rest, r, rfl, hw, hl, hx, hr⟩)

/-- RLEU's turn in COMPOSE (R180). -/
theorem rleuTurn_compose {s : State} (h : s.rleu.rstate = .compose) :
    rleuTurn s = .next (s.setRleu s.rleu.composite) := by
  unfold rleuTurn
  rw [h]

/-- RLEU's turn in IDLE, DONE or ERR (R9, R240). -/
theorem rleuTurn_resting {s : State} (h : s.rleu.rstate ≠ .run) (h' : s.rleu.rstate ≠ .compose) :
    rleuTurn s = .next s := by
  unfold rleuTurn
  split <;> simp_all

/-- ADPU's turn in RUN with every byte consumed (R202). -/
theorem adpuTurn_finish {s : State} (h : s.adpu.astate = .run) (hl : s.adpu.ainLen ≤ s.adpu.apos) :
    adpuTurn s = .next (s.setAdpu s.adpu.finish) := by
  unfold adpuTurn
  rw [h]
  exact if_pos hl

/-- ADPU's turn in RUN with a byte left (R202, R203). -/
theorem adpuTurn_sample {s : State} (h : s.adpu.astate = .run) (hl : s.adpu.apos < s.adpu.ainLen) :
    adpuTurn s = exec s.adpu.fetch s := by
  unfold adpuTurn
  rw [h]
  exact if_neg (by omega)

/-- ADPU's turn in IDLE, DONE or ERR (R9, R240). -/
theorem adpuTurn_resting {s : State} (h : s.adpu.astate ≠ .run) : adpuTurn s = .next s := by
  unfold adpuTurn
  split <;> simp_all

end Sys2Proof.Machine
end

