-- ==== Sys2Proof/Tests/Slice0.lean ====
section
/-! SUPPORT. Small checks. Expected results come from the encodings of 30_encoding.md and the vectors of
95_test_vectors.md (named V and A in the docstrings), never from the model; the last part gives every statement of
Certificates/Slice0/Obligations.lean that has hypotheses a state and operands that meet them. -/

namespace Sys2Proof.Machine

/-! ### Helpers -/

/-- The state an outcome gives, if it gives one. -/
def Tests.after (o : Host.Outcome State Fault Refusal) : Option State :=
  match o with
  | .next t => some t
  | .fault _ => none
  | .refused _ => none

/-- RLEU with `bytes` in IN and a frame, which is the whole canvas, of `w` by `h`, every register a job needs written. -/
def Tests.unit (bytes : List Byte) (w h : Nat) : Rleu :=
  { Rleu.reset with
    frameW := BitVec.ofNat 32 w
    frameH := BitVec.ofNat 32 h
    inLen := bytes.length
    inMem := Memory.writeBytes [] 0 bytes
    written := ⟨true, true, true, true, true, true⟩ }

/-- The same in RUN at the first byte, with the cursor at `(row, col)`. -/
def Tests.running (bytes : List Byte) (w h row col : Nat) : State :=
  State.reset.setRleu { Tests.unit bytes w h with
    cwEff := BitVec.ofNat 32 w
    chEff := BitVec.ofNat 32 h
    row := row
    col := col
    rstate := .run }

/-- ADPU in RUN at the first code of `bytes`. -/
def Tests.playing (bytes : List Byte) : State :=
  State.reset.setAdpu { Adpu.reset with
    ainLen := bytes.length
    ainLenWritten := true
    ain := Memory.writeBytes [] 0 bytes
    astate := .run }

/-! ### Well-formedness: an ill-formed term for each check -/

theorem test_wf_lit_zero_refused : Instr.wellFormed (.lit 0 0x2A) = false := by decide

theorem test_wf_lit_one : Instr.wellFormed (.lit 1 0x2A) = true := by decide

theorem test_wf_raw_three_refused : Instr.wellFormed (.raw [1, 2, 3]) = false := by decide

theorem test_wf_raw_four : Instr.wellFormed (.raw [1, 2, 3, 4]) = true := by decide

theorem test_wf_raw_256_refused : Instr.wellFormed (.raw (List.replicate 256 7)) = false := by
  show (decide (4 ≤ (List.replicate 256 (7 : Byte)).length) && decide ((List.replicate 256 (7 : Byte)).length ≤ 255)) = false
  rw [List.length_replicate]
  decide

theorem test_wf_raw_255 : Instr.wellFormed (.raw (List.replicate 255 7)) = true := by
  show (decide (4 ≤ (List.replicate 255 (7 : Byte)).length) && decide ((List.replicate 255 (7 : Byte)).length ≤ 255)) = true
  rw [List.length_replicate]
  decide

/-! ### Decoding: each constructor from bytes written out from its encoding -/

/-- R100: at least three bytes beginning `00 00`. -/
theorem test_decode_hdr : decodeHeader [0b00000000, 0b00000000, 0b00000101] = some .hdr := by decide

/-- R100, R126: two bytes alone are no header; R127: neither is another first byte. -/
theorem test_decode_no_hdr : decodeHeader [0x00, 0x00] = none ∧ decodeHeader [0x05, 0x00, 0x00] = none := by decide

/-- R93. -/
theorem test_decode_eor : decode [0b00000000, 0b00000000] = .token .eor [] := by decide

/-- R93. -/
theorem test_decode_eoi : decode [0b00000000, 0b00000001] = .token .eoi [] := by decide

/-- R93. -/
theorem test_decode_trn : decode [0b00000000, 0b00000010] = .token .trn [] := by decide

/-- R94: dx at offset 2, dy at offset 3. -/
theorem test_decode_repos : decode [0b00000000, 0b00000011, 0b00000010, 0b11111111] = .token (.repos 2 255) [] := by
  decide

/-- R95: an odd run has a pad byte, whose value is ignored (V13a). -/
theorem test_decode_raw : decode [0b00000000, 0b00000101, 1, 2, 3, 4, 5, 0xEE, 1] = .token (.raw [1, 2, 3, 4, 5]) [1] := by
  decide

/-- R92. -/
theorem test_decode_lit : decode [0b00000101, 0b00101010, 0x00] = .token (.lit 5 42) [0x00] := by decide

/-- R104, R105: the high nibble first. -/
theorem test_decode_sample : decodeCode 0b01111001 false = 0b0111 ∧ decodeCode 0b01111001 true = 0b1001 := by decide

/-- R131, R160, R162 (V14a, V14c, V14e, V14g): a token that is cut short. -/
theorem test_decode_truncated :
    decode [0x05] = .truncated ∧ decode [0x00, 0x03, 0x01] = .truncated ∧
    decode [0x00, 0x05, 1, 2, 3, 4, 5] = .truncated ∧ decode [0x00, 0x04, 1, 2, 3] = .truncated ∧
    decode [] = .exhausted := by decide

/-- The table's rows as the host numbers them: REPOS with its operand word, RAW with operand bytes of
zero, SAMPLE with its four bits. -/
theorem test_table_words :
    decodeTableWord 16 0x0001 = some .eoi ∧ decodeTableWord 32 0xFF020003 = some (.repos 0xFF 0x02) ∧
    decodeTableWord 16 0x052A = some (.lit 5 0x2A) ∧
    decodeTableWord 16 0x0004 = some (.raw [0, 0, 0, 0]) ∧ decodeTableWord 4 0x9 = some (.sample 9) := by decide

/-! ### One step of each token -/

/-- R127: POS 2, the cursor stays. -/
theorem test_hdr : (Tests.after (exec .hdr (Tests.running [] 5 1 0 0))).map
    (fun t => (t.rleu.pos, t.rleu.row, t.rleu.col)) = some (2, 0, 0) := by decide

/-- The example of R153: at `(0, 5)` with two rows, `00 00` gives `(1, 0)`, still in RUN. -/
theorem test_eor : (Tests.after (rleuTurn (Tests.running [0x00, 0x00] 5 2 0 5))).map
    (fun t => (t.rleu.row, t.rleu.col, t.rleu.pos, t.rleu.rstate)) = some (1, 0, 2, .run) := by decide

/-- R154 (V1): the last row ends the pass. -/
theorem test_eor_last_row : (Tests.after (rleuTurn (Tests.running [0x00, 0x00] 5 1 0 5))).map
    (fun t => (t.rleu.row, t.rleu.col, t.rleu.rstate)) = some (1, 0, .compose) := by decide

/-- R155 (V6): the pass ends with the cursor where it was. -/
theorem test_eoi : (Tests.after (rleuTurn (Tests.running [0x00, 0x01, 0x03] 3 2 0 1))).map
    (fun t => (t.rleu.row, t.rleu.col, t.rleu.pos, t.rleu.rstate)) = some (0, 1, 2, .compose) := by decide

/-- The example of R158: at `(0, 1)`. -/
theorem test_trn : (Tests.after (rleuTurn (Tests.running [0x00, 0x02] 4 2 0 1))).map
    (fun t => (t.rleu.tArmed, t.rleu.tRow, t.rleu.tCol, t.rleu.pos)) = some (true, 0, 1, 2) := by decide

/-- The example of R160: `00 03 02 01` at `(0, 0)` gives `(1, 2)`. -/
theorem test_repos : (Tests.after (rleuTurn (Tests.running [0x00, 0x03, 0x02, 0x01] 4 3 0 0))).map
    (fun t => (t.rleu.row, t.rleu.col, t.rleu.pos)) = some (1, 2, 4) := by decide

/-- V12b: `dx = FF` is 255 to the right, not one to the left. -/
theorem test_repos_unsigned : (Tests.after (rleuTurn (Tests.running [0x00, 0x03, 0xFF, 0x00] 300 1 0 0))).map
    (fun t => (t.rleu.row, t.rleu.col)) = some (0, 255) := by decide

/-- The example of R162 (V13a). -/
theorem test_raw : (Tests.after (rleuTurn (Tests.running [0x00, 0x05, 1, 2, 3, 4, 5, 0xEE] 6 1 0 0))).map
    (fun t => (Memory.slice t.rleu.pix 0 6, t.rleu.col, t.rleu.pos)) = some ([1, 2, 3, 4, 5, 0], 5, 8) := by decide

/-- V13d: the fifth pixel is outside the canvas. -/
theorem test_raw_outside : (Tests.after (rleuTurn (Tests.running [0x00, 0x05, 1, 2, 3, 4, 5, 0xEE] 4 1 0 0))).map
    (fun t => (t.rleu.rstate, t.rleu.errCode, t.rleu.errCol, t.rleu.pos)) = some (.err, .writeOutOfCanvas, 0, 0) := by
  decide

/-- L1, V1: five pixels of 2A, COL 5. -/
theorem test_lit : (Tests.after (rleuTurn (Tests.running [0x05, 0x2A] 5 1 0 0))).map
    (fun t => (Memory.slice t.rleu.pix 0 6, t.rleu.col, t.rleu.pos)) =
      some ([0x2A, 0x2A, 0x2A, 0x2A, 0x2A, 0x00], 5, 2) := by decide

/-- V8a: armed at `(0, 0)`, moved to column 2, two pixels: the record is `(0, 0, 4)` and the flag is clear. -/
theorem test_lit_armed :
    (Tests.after (rleuTurn (((Tests.running [0x02, 0x09] 6 1 0 2).setRleu
      { (Tests.running [0x02, 0x09] 6 1 0 2).rleu with tArmed := true })))).map
    (fun t => (t.rleu.trl, t.rleu.tArmed)) = some ([⟨0, 0, 4⟩], false) := by decide

/-! ### One step of ADPU -/

/-- A1, code 7: sample 13, index 8, then the low nibble of the same byte. -/
theorem test_sample : (Tests.after (adpuTurn (Tests.playing [0x70]))).map
    (fun t => (Memory.slice t.adpu.pcm 0 2, t.adpu.predictor, t.adpu.stepIndex.val, t.adpu.apos, t.adpu.nib)) =
      some ([0x0D, 0x00], 13, 8, 0, true) := by decide

/-- A9: at the upper bound and step 32767, code F gives 32767 - 61438. -/
theorem test_sample_negative : (Tests.after (exec (.sample 0xF)
    (State.reset.setAdpu { Adpu.reset with predictor := 32767, stepIndex := 88 }))).map
    (fun t => (t.adpu.predictor, t.adpu.stepIndex.val)) = some (-28671, 88) := by decide

/-! ### Job start, composite step, mask, HOST -/

/-- V1 and V2: POS 2 after the header, 0 without it; V3c: a stream of two bytes is done at once. -/
theorem test_job_start :
    (Rleu.jobStart Params.reset (Tests.unit [0x00, 0x00, 0x05, 0x2A, 0x00, 0x00] 5 1)).pos = 2 ∧
    (Rleu.jobStart Params.reset (Tests.unit [0x05, 0x2A, 0x00, 0x00] 5 1)).pos = 0 ∧
    (Rleu.jobStart Params.reset (Tests.unit [0x05, 0x2A] 5 1)).rstate = .done := by decide

/-- V17a, V17b and V17c. -/
theorem test_job_start_errors :
    (Rleu.jobStart Params.reset { Tests.unit [5] 3 1 with
        frameX := 2, canvasW := 4, rctrl := ⟨false, true, false⟩ }).errCode = .geometryOverflow ∧
    (Rleu.jobStart Params.reset { Tests.unit [5] 3 1 with
        frameX := 2, canvasW := 4, rctrl := ⟨false, true, false⟩ }).errCol = 2 ∧
    (Rleu.jobStart Params.reset { Tests.unit [5] 2 1 with
        keyLen := 3, rctrl := ⟨true, false, false⟩ }).errCode = .sizeMismatch ∧
    (Rleu.jobStart { Params.reset with pixCap := some 15 } (Tests.unit [5] 4 4)).errCode = .allocationFailure := by
  decide

/-- V7b: the record `(0, 1, 2)` takes the keyframe's pixels. -/
theorem test_compose_runs :
    Memory.slice (Rleu.composedPix { Tests.unit [] 4 2 with
      cwEff := 4, chEff := 2, rctrl := ⟨true, false, false⟩, trl := [⟨0, 1, 2⟩],
      pix := Memory.writeBytes [] 0 [5, 0, 0, 6, 7, 7, 7, 7],
      keyMem := Memory.writeBytes [] 0 [0xA0, 0xA1, 0xA2, 0xA3, 0xA4, 0xA5, 0xA6, 0xA7] }) 0 8 =
    [5, 0xA1, 0xA2, 6, 7, 7, 7, 7] := by decide

/-- V18: no record, so every background pixel takes the keyframe's. -/
theorem test_compose_background :
    Memory.slice (Rleu.composedPix { Tests.unit [] 4 2 with
      cwEff := 4, chEff := 2, rctrl := ⟨true, false, false⟩,
      pix := Memory.writeBytes [] 0 [5, 0, 6, 6],
      keyMem := Memory.writeBytes [] 0 [0xA0, 0xA1, 0xA2, 0xA3, 0xA4, 0xA5, 0xA6, 0xA7] }) 0 8 =
    [5, 0xA1, 6, 6, 0xA4, 0xA5, 0xA6, 0xA7] := by decide

/-- The mask view of V11. -/
theorem test_mask : (List.range 4).map (maskByte 4 [⟨0, 0, 1⟩, ⟨0, 1, 1⟩]) = [0xFF, 0xFF, 0x00, 0x00] := by decide

/-- The memories of State.reset are in canonical form. -/
theorem test_reset_memories :
    Memory.wf State.reset.rleu.inMem ∧ Memory.wf State.reset.rleu.keyMem ∧ Memory.wf State.reset.rleu.pix ∧
    Memory.wf State.reset.adpu.ain ∧ Memory.wf State.reset.adpu.pcm := by decide

/-- The host's placement: the very next step runs the placed token and the placed code. -/
theorem test_fetch_word :
    (Tests.after (step (State.reset.withFetchWord 16 0x0002))).map (fun t => t.rleu.tArmed) = some true ∧
    (Tests.after (step (State.reset.withFetchWord 4 0x7))).map (fun t => t.adpu.predictor) = some 13 := by decide

/-! ### Every statement with hypotheses has a state and operands that meet them: encoding and fetch -/

theorem test_witness_decode_of_encode :
    (Instr.lit 255 0).wellFormed = true ∧ (Instr.lit 255 0).isToken = true ∧
    (Instr.raw [0, 0, 0, 0]).wellFormed = true ∧ (Instr.raw [0, 0, 0, 0]).isToken = true ∧
    [(0x00 : Byte)] ≠ [] := by decide

theorem test_witness_decoded_bytes : decode [0x00, 0x03, 0xFF, 0x00, 0x07] = .token (.repos 0xFF 0x00) [0x07] := by
  decide

theorem test_witness_pad_byte : 4 ≤ (5 : Byte).toNat ∧ (5 : Byte).toNat % 2 = 1 ∧
    [(1 : Byte), 2, 3, 4, 5].length = (5 : Byte).toNat := by decide

/-- The longest odd run. -/
theorem test_witness_pad_byte_longest : 4 ≤ (255 : Byte).toNat ∧ (255 : Byte).toNat % 2 = 1 ∧
    (List.replicate 255 (9 : Byte)).length = (255 : Byte).toNat := by
  rw [List.length_replicate]
  decide

theorem test_witness_step_token :
    let s := Tests.running [0x01, 0x05] 5 1 0 0
    s.rleu.rstate = .run ∧ s.rleu.fetch = .token (.lit 1 5) [] ∧ s.pending = [] ∧
    (s.setPending [.rleu]).pending = [.rleu] ∧ (s.setPending [.rleu]).rleu.fetch = .token (.lit 1 5) [] := by decide

theorem test_witness_step_code :
    let s := Tests.playing [0x7F]
    s.adpu.astate = .run ∧ s.adpu.apos < s.adpu.ainLen ∧ s.pending = [] ∧ s.rleu.rstate ≠ .run ∧
    s.rleu.rstate ≠ .compose ∧ (s.setPending [.adpu]).pending = [.adpu] := by decide

/-- A raw run whose pad byte stands last, in both directions. -/
theorem test_witness_fetch :
    let r := Tests.unit [0x00, 0x05, 1, 2, 3, 4, 5, 0xEE] 5 1
    r.fetch = .token (.raw [1, 2, 3, 4, 5]) [] ∧ (Instr.raw [1, 2, 3, 4, 5]).wellFormed = true ∧
    r.pos + (Instr.raw [1, 2, 3, 4, 5]).lengthBytes ≤ r.inLen ∧
    ∀ j, j < (Instr.raw [1, 2, 3, 4, 5]).lengthBytes →
      (∀ payload, Instr.raw [1, 2, 3, 4, 5] = .raw payload → j < 2 + payload.length) →
      (encode (.raw [1, 2, 3, 4, 5]))[j]? = some (Memory.read r.inMem (r.pos + j)) := by
  refine ⟨by decide, by decide, by decide, fun j _ h => ?_⟩
  have hj : j < 7 := h _ rfl
  interval_cases j <;> decide

theorem test_witness_exhaustion :
    let s := Tests.running [] 5 1 0 0
    s.rleu.rstate = .run ∧ s.rleu.inLen ≤ s.rleu.pos := by decide

theorem test_witness_second_byte :
    let s := Tests.running [0x05] 5 1 0 0
    s.rleu.rstate = .run ∧ s.rleu.pos + 1 = s.rleu.inLen := by decide

/-- One byte short of a REPOS. -/
theorem test_witness_operand_repos :
    let s := Tests.running [0x00, 0x03, 0x01] 6 1 0 0
    s.rleu.rstate = .run ∧ s.rleu.pos + 1 < s.rleu.inLen ∧ Memory.read s.rleu.inMem s.rleu.pos = 0x00 ∧
    Memory.read s.rleu.inMem (s.rleu.pos + 1) = 0x03 ∧ s.rleu.pos + 4 > s.rleu.inLen := by decide

/-- One byte short of the smallest RAW. -/
theorem test_witness_operand_raw :
    let s := Tests.running [0x00, 0x04, 1, 2, 3] 6 1 0 0
    s.rleu.rstate = .run ∧ s.rleu.pos + 1 < s.rleu.inLen ∧ Memory.read s.rleu.inMem s.rleu.pos = 0x00 ∧
    4 = (Memory.read s.rleu.inMem (s.rleu.pos + 1)).toNat ∧ s.rleu.pos + (2 + 4 + 4 % 2) > s.rleu.inLen := by decide

/-! ### Witnesses: tokens and codes -/

/-- A frame of height 0 on the shortest stream that is not short, under JobStartInitialises. -/
theorem test_witness_zero_height :
    let r := Tests.unit [0x00, 0x00, 0x05] 5 0
    r.geometryOverflows = false ∧ r.keySizeMismatches = false ∧ withinCap none r.jobPixels = true ∧ 3 ≤ r.inLen ∧
    r.frameH = 0 := by decide

/-- The shortest stream that is not short, with and without a header. -/
theorem test_witness_job_start :
    let r := Tests.unit [0x00, 0x00, 0x05] 5 1
    let r' := Tests.unit [0x05, 0x2A, 0x00] 5 1
    r.geometryOverflows = false ∧ r.keySizeMismatches = false ∧ withinCap (some 5) r.jobPixels = true ∧ 3 ≤ r.inLen ∧
    r'.geometryOverflows = false ∧ r'.keySizeMismatches = false ∧ withinCap none r'.jobPixels = true ∧
    3 ≤ r'.inLen ∧ ¬ (Memory.read r'.inMem 0 = 0x00 ∧ Memory.read r'.inMem 1 = 0x00) := by decide

theorem test_witness_repos :
    (Tests.running [0x00, 0x03, 1, 2] 5 1 0 0).rleu.pos + 4 ≤ (Tests.running [0x00, 0x03, 1, 2] 5 1 0 0).rleu.inLen ∧
    (Tests.running [0x00, 0x03, 1] 5 1 0 0).rleu.pos + 4 > (Tests.running [0x00, 0x03, 1] 5 1 0 0).rleu.inLen := by
  decide

/-- The run ends exactly at the stream's end and at the canvas's edge; one byte less; one pixel more; one row lower. -/
theorem test_witness_raw :
    let p : List Byte := [1, 2, 3, 4, 5]
    let s := Tests.running ([0x00, 0x05] ++ p ++ [0]) 5 1 0 0
    let short := Tests.running ([0x00, 0x05] ++ p) 5 1 0 0
    let right := Tests.running ([0x00, 0x05] ++ p ++ [0]) 5 1 0 1
    let low := Tests.running ([0x00, 0x05] ++ p ++ [0]) 5 1 1 0
    let len := 2 + p.length + p.length % 2
    p ≠ [] ∧ s.rleu.pos + len ≤ s.rleu.inLen ∧ s.rleu.row < s.rleu.ch ∧ s.rleu.col + p.length ≤ s.rleu.cw ∧
    short.rleu.pos + len > short.rleu.inLen ∧
    right.rleu.pos + len ≤ right.rleu.inLen ∧ right.rleu.col + p.length > right.rleu.cw ∧
    low.rleu.pos + len ≤ low.rleu.inLen ∧ low.rleu.row ≥ low.rleu.ch := by decide

/-- A run up to the canvas's edge, under a clear flag. -/
theorem test_witness_lit :
    let s := Tests.running [5, 7] 5 1 0 0
    s.rleu.tArmed = false ∧ s.rleu.row < s.rleu.ch ∧ s.rleu.col + (5 : Byte).toNat ≤ s.rleu.cw := by decide

/-- The same under a set flag, TRL having room for exactly one record. -/
theorem test_witness_lit_armed :
    let s := Tests.running [5, 7] 5 1 0 0
    let t : State := { s.setRleu { s.rleu with tArmed := true } with params := { Params.reset with trlCap := some 1 } }
    t.rleu.tArmed = true ∧ t.rleu.row < t.rleu.ch ∧ t.rleu.col + (5 : Byte).toNat ≤ t.rleu.cw ∧
    withinCap t.params.trlCap (t.rleu.trlCount + 1) = true := by decide

/-- A pixel too far right, a row too low, and a full TRL. -/
theorem test_witness_lit_errors :
    let s := Tests.running [1, 7] 5 1 0 0
    let right := Tests.running [1, 7] 5 1 0 5
    let low := Tests.running [1, 7] 5 1 1 0
    let full : State := { s.setRleu { s.rleu with tArmed := true } with params := { Params.reset with trlCap := some 0 } }
    (1 : Byte) ≠ 0 ∧ right.rleu.col + (1 : Byte).toNat > right.rleu.cw ∧ low.rleu.row ≥ low.rleu.ch ∧
    full.rleu.row < full.rleu.ch ∧ full.rleu.col + (1 : Byte).toNat ≤ full.rleu.cw ∧ full.rleu.tArmed = true ∧
    ∃ c, full.params.trlCap = some c ∧ c ≤ full.rleu.trlCount :=
  ⟨by decide, by decide, by decide, by decide, by decide, by decide, 0, rfl, by decide⟩

theorem test_witness_armed_flag :
    ∃ t, (Tests.running [0, 2] 5 1 0 0).rleu.rstate ≠ .err ∧ exec .trn (Tests.running [0, 2] 5 1 0 0) = .next t ∧
      t.rleu.rstate ≠ .err :=
  ⟨_, by decide, rfl, by decide⟩

theorem test_witness_failing_token :
    ∃ t, (Tests.running [] 5 1 0 0).rleu.rstate ≠ .err ∧ exec (.repos 1 1) (Tests.running [] 5 1 0 0) = .next t ∧
      t.rleu.rstate = .err :=
  ⟨_, by decide, rfl, rfl⟩

theorem test_witness_sample : ∃ t, exec (.sample 0xF) (Tests.playing [0xF7]) = .next t := ⟨_, rfl⟩

/-- PCM too small by one sample, and exactly large enough. -/
theorem test_witness_adpu_start :
    let s : State := { State.reset.setAdpu { Adpu.reset with ainLen := 3, ainLenWritten := true } with
      params := { Params.reset with pcmCap := some 5 } }
    let s' : State := { s with params := { Params.reset with pcmCap := some 6 } }
    s.adpu.astate ≠ .run ∧ s.adpu.ainLenWritten = true ∧ (∃ c, s.params.pcmCap = some c ∧ c < 2 * s.adpu.ainLen) ∧
    ∀ c, s'.params.pcmCap = some c → 2 * s'.adpu.ainLen ≤ c := by
  refine ⟨by decide, by decide, ⟨5, rfl, by decide⟩, fun c h => ?_⟩
  injection h with h
  subst h
  decide

/-- For the whole job, no code decoded and every code decoded. -/
theorem test_witness_adpu_job :
    let s := Tests.playing [0x00]
    s.adpu.astate = .run ∧ s.adpu.apos = 0 ∧ s.adpu.nib = false ∧ s.adpu.outCount = 0 ∧ s.adpu.predictor = 0 ∧
    s.adpu.stepIndex = 0 ∧ (∀ a, a < s.adpu.ainLen → Memory.read s.adpu.ain a = 0x00) ∧
    0 ≤ 2 * s.adpu.ainLen ∧ 2 ≤ 2 * s.adpu.ainLen ∧
    (∃ t, turns adpuTurn 0 s = .next t) ∧ ∃ t, turns adpuTurn 2 s = .next t :=
  ⟨by decide, by decide, by decide, by decide, by decide, by decide, by decide, by decide, by decide, ⟨_, rfl⟩, _, rfl⟩

/-! ### Witnesses: jobs of RLEU -/

/-- One state for each clause: the frame one pixel too wide; a keyframe of the wrong size; PIX one byte too small; none
of the three. -/
theorem test_witness_job_start_errors :
    let r := Tests.unit [5] 3 1
    let wide := { r with frameX := 1, canvasW := 3, rctrl := ⟨false, true, false⟩ }
    let key := { r with keyLen := 2, rctrl := ⟨true, false, false⟩ }
    r.rstate ≠ .run ∧ r.rstate ≠ .compose ∧ r.parametersWritten = true ∧ wide.parametersWritten = true ∧
    key.parametersWritten = true ∧
    wide.frameX.toNat + wide.frameW.toNat > wide.canvasW.toNat ∧
    ¬ (r.frameX.toNat + r.frameW.toNat > r.frameW.toNat ∨ r.frameY.toNat + r.frameH.toNat > r.frameH.toNat) ∧
    (key.rctrl.keyPresent = true ∧ key.keyLen ≠ key.frameW.toNat * key.frameH.toNat) ∧
    ¬ (r.rctrl.keyPresent = true ∧ r.keyLen ≠ r.frameW.toNat * r.frameH.toNat) ∧
    (∃ c, some 2 = some c ∧ c < r.frameW.toNat * r.frameH.toNat) ∧
    ¬ ∃ c, some 3 = some c ∧ c < r.frameW.toNat * r.frameH.toNat := by
  refine ⟨by decide, by decide, by decide, by decide, by decide, by decide, by decide, by decide, by decide,
    ⟨2, rfl, by decide⟩, ?_⟩
  rintro ⟨c, h, hc⟩
  injection h with h
  subst h
  revert hc
  decide

theorem test_witness_short_stream :
    let r := Tests.unit [0x05, 0x2A] 5 1
    r.geometryOverflows = false ∧ r.keySizeMismatches = false ∧ withinCap none r.jobPixels = true ∧ r.inLen ≤ 2 := by
  decide

/-- Two units that differ in what an earlier job left. -/
theorem test_witness_same_inputs :
    Rleu.SameInputs (Tests.unit [5, 7, 0] 5 1)
      { Tests.unit [5, 7, 0] 5 1 with
        pos := 9, row := 4, tArmed := true, trl := [⟨1, 2, 3⟩], pix := [(0, 9)], rstate := .err } :=
  ⟨rfl, rfl, rfl, rfl, rfl, rfl, rfl, rfl, rfl, rfl, rfl⟩

/-- Two ADPUs that differ in what an earlier job left. -/
theorem test_witness_same_adpu_inputs :
    let d := (Tests.playing [0x70]).adpu
    let d' := { d with predictor := 7, stepIndex := 3, pcm := [(0, 9)], outCount := 1, astate := .err }
    d.ainLen = d'.ainLen ∧ d.ain = d'.ain := ⟨rfl, rfl⟩

/-- Two playing ADPUs that differ in a byte of PCM not yet written, each with its next state. -/
theorem test_witness_same_adpu_job :
    let s := Tests.playing [0x70]
    let s' := s.setAdpu { s.adpu with pcm := [(0, 9)] }
    s.adpu.SameJob s'.adpu ∧ (∃ t, adpuTurn s = .next t) ∧ ∃ t, adpuTurn s' = .next t :=
  ⟨⟨rfl, rfl, rfl, rfl, fun _ => ⟨rfl, rfl⟩, fun _ => ⟨rfl, rfl⟩, fun _ => rfl,
    fun _ _ h => absurd h (Nat.not_lt_zero _)⟩, ⟨_, rfl⟩, _, rfl⟩

/-- Two running units that differ in the error context and the remembered position, each with its next state. -/
theorem test_witness_same_job :
    let s := Tests.running [5, 7, 0] 5 1 0 0
    let s' := s.setRleu { s.rleu with errPos := 3, tCol := 4 }
    s.params = s'.params ∧ s.rleu.SameJob s'.rleu ∧ (∃ t, rleuTurn s = .next t) ∧ ∃ t, rleuTurn s' = .next t := by
  refine ⟨rfl, ⟨⟨rfl, rfl, rfl, rfl, rfl, rfl, rfl, rfl, rfl, rfl, rfl⟩, rfl, rfl, ?_, ?_, ?_, ?_, ?_, ?_, ?_⟩,
    ⟨_, rfl⟩, _, rfl⟩
  · intro h
    exact absurd h (by decide)
  · exact fun _ => ⟨rfl, rfl⟩
  · exact fun _ => ⟨rfl, rfl, rfl⟩
  · exact fun _ => rfl
  · intro _ h
    exact absurd h (by decide)
  · exact fun _ => rfl
  · exact fun _ _ _ => rfl

/-- V1 and V2 at the job start. -/
theorem test_witness_header :
    let r := Tests.unit [0x05, 0x2A, 0x00] 5 1
    let m := Memory.writeBytes [] 0 [0x00, 0x00, 0x05, 0x2A, 0x00]
    3 ≤ r.inLen ∧ ¬ (Memory.read r.inMem 0 = 0x00 ∧ Memory.read r.inMem 1 = 0x00) ∧ Memory.read m 0 = 0x00 ∧
    Memory.read m 1 = 0x00 ∧ ∀ a, Memory.read m (a + 2) = Memory.read r.inMem a := by
  refine ⟨by decide, by decide, by decide, by decide, fun a => ?_⟩
  show Memory.read [(2, 0x05), (3, 0x2A)] (a + 2) = Memory.read [(0, 0x05), (1, 0x2A)] a
  simp [Memory.read]

/-- V1 and V2 at their first token. -/
theorem test_witness_header_turn :
    let s := Tests.running [0x05, 0x2A, 0x00] 5 1 0 0
    let s' := s.setRleu { s.rleu with
      inMem := Memory.writeBytes [] 0 [0x00, 0x00, 0x05, 0x2A, 0x00], inLen := 5, pos := 2 }
    s.params = s'.params ∧ s.rleu.WithHeader s'.rleu ∧ (∃ t, rleuTurn s = .next t) ∧ ∃ t, rleuTurn s' = .next t := by
  refine ⟨rfl, ⟨rfl, fun a => ?_, fun _ => rfl, fun h => absurd h (by decide), rfl, fun _ => ⟨rfl, rfl⟩⟩, ⟨_, rfl⟩,
    _, rfl⟩
  show Memory.read [(2, 0x05), (3, 0x2A)] (a + 2) = Memory.read [(0, 0x05), (1, 0x2A)] a
  simp [Memory.read]

/-- V1's frame one pixel too wide for its canvas, with and without the header: the job start raises. -/
theorem test_witness_header_start_error :
    let r := { Tests.unit [0x05, 0x2A, 0x00] 5 1 with frameX := 1 }
    3 ≤ r.inLen ∧ ¬ (Memory.read r.inMem 0 = 0x00 ∧ Memory.read r.inMem 1 = 0x00) ∧
    (Rleu.jobStart Params.reset r).rstate = .err := by decide

/-- A token one pixel too long for the canvas, with and without the header: both turns raise. -/
theorem test_witness_header_turn_error :
    let s := Tests.running [0x06, 0x2A, 0x00] 5 1 0 0
    let s' := s.setRleu { s.rleu with
      inMem := Memory.writeBytes [] 0 [0x00, 0x00, 0x06, 0x2A, 0x00], inLen := 5, pos := 2 }
    s.params = s'.params ∧ s.rleu.WithHeader s'.rleu ∧ s.rleu.rstate = .run ∧
    (∃ t, rleuTurn s = .next t ∧ t.rleu.rstate = .err) ∧ ∃ t, rleuTurn s' = .next t := by
  refine ⟨rfl, ⟨rfl, fun a => ?_, fun _ => rfl, fun h => absurd h (by decide), rfl, fun _ => ⟨rfl, rfl⟩⟩, rfl,
    ⟨_, rfl, rfl⟩, _, rfl⟩
  show Memory.read [(2, 0x06), (3, 0x2A)] (a + 2) = Memory.read [(0, 0x06), (1, 0x2A)] a
  simp [Memory.read]

theorem test_witness_compose :
    let s := (Tests.running [] 5 1 0 0).setRleu { (Tests.running [] 5 1 0 0).rleu with
      rstate := .compose, rctrl := ⟨true, false, false⟩ }
    let t := s.setRleu { s.rleu with trl := [⟨0, 1, 2⟩] }
    let u := s.setRleu { s.rleu with rctrl := ⟨false, false, false⟩ }
    s.rleu.rstate = .compose ∧ s.rleu.rctrl.keyPresent = true ∧ s.rleu.trlCount = 0 ∧
    t.rleu.rstate = .compose ∧ t.rleu.rctrl.keyPresent = true ∧ t.rleu.trlCount > 0 ∧
    u.rleu.rstate = .compose ∧ u.rleu.rctrl.keyPresent = false := by decide

/-- A record up to the canvas's corner. -/
theorem test_witness_mask :
    Rleu.RecordsInCanvas { (Tests.running [] 5 2 0 0).rleu with trl := [⟨1, 4, 1⟩] } ∧
    1 < (Tests.running [] 5 2 0 0).rleu.ch ∧ 4 < (Tests.running [] 5 2 0 0).rleu.cw := by
  unfold Rleu.RecordsInCanvas
  decide

/-! ### Witnesses: HOST -/

theorem test_witness_reset : ∃ t, t = State.reset ∨ hostMove .reset (Tests.running [5] 5 1 0 0) = .next t :=
  ⟨_, .inr rfl⟩

theorem test_witness_forbidden_moves :
    let run := Tests.running [] 5 1 0 0
    let compose := run.setRleu { run.rleu with rstate := .compose }
    run.rleu.rstate = .run ∧ compose.rleu.rstate = .compose ∧ 2 ^ 32 - 1 < 2 ^ run.params.lenBits ∧
    2 ^ run.params.lenBits ≤ 2 ^ 32 ∧
    (Tests.playing [0]).adpu.astate = .run ∧
    State.reset.rleu.rstate ≠ .run ∧ State.reset.rleu.rstate ≠ .compose ∧ State.reset.rleu.written.frameW = false ∧
    State.reset.adpu.astate ≠ .run ∧ State.reset.adpu.ainLenWritten = false := by decide

theorem test_witness_outputs :
    let s := State.reset.setRleu { (Tests.running [] 5 2 0 0).rleu with rstate := .done, trl := [⟨0, 1, 2⟩] }
    let d := State.reset.setAdpu { Adpu.reset with astate := .done, outCount := 2 }
    State.reset.rleu.rstate ≠ .done ∧ State.reset.adpu.astate ≠ .done ∧
    s.rleu.rstate = .done ∧ 1 < s.rleu.ch ∧ 4 < s.rleu.cw ∧ 0 < s.rleu.trl.length ∧
    d.adpu.astate = .done ∧ 1 < d.adpu.outCount := by decide

/-- Each unit at rest while the other runs. -/
theorem test_witness_host_writes :
    (Tests.playing [0]).rleu.rstate ≠ .run ∧ (Tests.playing [0]).rleu.rstate ≠ .compose ∧
    (Tests.playing [0]).adpu.astate = .run ∧ (Tests.running [] 5 1 0 0).adpu.astate ≠ .run ∧
    (Tests.running [] 5 1 0 0).rleu.rstate = .run ∧ 2 ^ 32 - 1 < 2 ^ State.reset.params.lenBits := by decide

/-- One state for each clause. -/
theorem test_witness_inputs :
    let s := Tests.running [] 5 1 0 0
    State.reset.rleu.rstate ≠ .run ∧ State.reset.rleu.rstate ≠ .compose ∧ State.reset.adpu.astate ≠ .run ∧
    s.rleu.rstate = .run ∧ (s.setRleu { s.rleu with rstate := .compose }).rleu.rstate = .compose ∧
    (Tests.playing [0]).adpu.astate = .run := by decide

/-- The byte that HOST wrote into IN is read back in IDLE, and not while RLEU runs (R69). -/
theorem test_read_in :
    (Tests.after (hostMove (.writeIn 3 0x2A) State.reset)).map (readIn 3) = some (.next 0x2A) ∧
    readIn 0 (Tests.running [5, 7] 5 1 0 0) = .refused .memoryReadWhileRunning := ⟨rfl, rfl⟩

/-- The same for AIN (R69), RLEU's state being of no account. -/
theorem test_read_ain :
    (Tests.after (hostMove (.writeAin 0 0x7F) (Tests.running [5, 7] 5 1 0 0))).map (readAin 0) = some (.next 0x7F) ∧
    readAin 0 (Tests.playing [0x7F]) = .refused .memoryReadWhileRunning := ⟨rfl, rfl⟩

/-! ### Witnesses: the events -/

/-- One state for each clause: an event of each kind, and none with RLEU in RUN, in COMPOSE and at rest. -/
theorem test_witness_events :
    let s := Tests.running [5, 7] 5 1 0 0
    (s.setPending [.rleu]).pending = [.rleu] ∧ (s.setPending [.adpu]).pending = [.adpu] ∧
    (s.setPending [.host .reset, .rleu]).pending = [.host .reset, .rleu] ∧
    s.pending = [] ∧ s.rleu.rstate = .run ∧ (s.setRleu s.rleu.endPass).rleu.rstate = .compose ∧
    State.reset.pending = [] ∧ State.reset.rleu.rstate ≠ .run ∧ State.reset.rleu.rstate ≠ .compose := by decide

/-- An empty input, and a byte wholly decoded. -/
theorem test_witness_adpu_finish :
    let s := Tests.playing []
    let s' := (Tests.playing [0x70]).setAdpu { (Tests.playing [0x70]).adpu with apos := 1 }
    s.adpu.astate = .run ∧ s.adpu.ainLen ≤ s.adpu.apos ∧ s'.adpu.astate = .run ∧ s'.adpu.ainLen ≤ s'.adpu.apos := by
  decide

/-! ### Witnesses: the whole machine -/

/-- RLEU in the middle of a job, with a record behind the cursor and an armed flag. -/
def Tests.busy (bytes : List Byte) : State :=
  (Tests.running bytes 5 2 1 2).setRleu { (Tests.running bytes 5 2 1 2).rleu with
    trl := [⟨0, 1, 2⟩], tArmed := true, tRow := 1, tCol := 1 }

theorem test_witness_invariant (bytes : List Byte) (h : bytes.length < 2 ^ 32)
    (hm : Memory.wf (Memory.writeBytes [] 0 bytes)) : (Tests.busy bytes).Inv := by
  have nil : Memory.wf [] := ⟨List.Pairwise.nil, fun c hc => absurd hc List.not_mem_nil⟩
  refine ⟨?_, ⟨hm, nil, nil, h, ?_, rfl, ?_, ?_, ?_, ?_, ?_, ?_, ?_⟩, ⟨nil, nil, ?_, ?_, ?_, ?_, ?_, rfl, ?_, ?_, ?_, ?_,
    ?_⟩⟩
  · show 1 ≤ 32
    decide
  · show 0 < 2 ^ 32
    decide
  · exact fun c hc => absurd hc List.not_mem_nil
  · exact ⟨fun _ h => (nomatch h), fun _ => rfl⟩
  · exact fun _ => ⟨rfl, rfl, rfl, rfl, rfl⟩
  · exact fun _ => ⟨rfl, Nat.zero_le _, Nat.zero_le _, fun _ => Nat.le_refl 1, fun _ => Nat.le_succ 1⟩
  · intro _ t ht
    have ht : t ∈ [(⟨0, 1, 2⟩ : TrlRecord)] := ht
    rw [List.mem_singleton] at ht
    subst ht
    show 0 < 2 ∧ 1 < 5 ∧ 1 ≤ 2 ∧ 1 + 2 ≤ 5
    decide
  · intro h
    rcases h with h | h | h <;> exact nomatch h
  · exact fun h => nomatch h
  · show 0 < 2 ^ 32
    decide
  · show 0 < 2 ^ 34
    decide
  · exact fun c hc => absurd hc List.not_mem_nil
  · show (-32768 : Int) ≤ 0
    decide
  · show (0 : Int) ≤ 32767
    decide
  · exact fun h => nomatch h
  · intro h
    rcases h with h | h <;> exact nomatch h
  · exact fun h => nomatch h
  · exact fun h => nomatch h
  · exact fun h => nomatch h

/-- A LIT that records, and an EOR that ends the pass. -/
theorem test_witness_step :
    (Tests.busy [1, 7]).Inv ∧ (Tests.busy [1, 7]).rleu.PassInv ∧ (∃ t, step (Tests.busy [1, 7]) = .next t) ∧
    (Tests.busy [0, 0]).Inv ∧ (Tests.busy [0, 0]).rleu.PassInv ∧
    ∃ t, step (Tests.busy [0, 0]) = .next t ∧ t.rleu.rstate = .compose := by
  have pass : ∀ bytes, (Tests.busy bytes).rleu.PassInv := by
    intro bytes
    refine ⟨fun _ => ⟨List.pairwise_singleton _ _, fun t ht => ?_⟩, fun _ _ _ _ _ _ => rfl, fun h => ?_⟩
    · have ht : t ∈ [(⟨0, 1, 2⟩ : TrlRecord)] := ht
      rw [List.mem_singleton] at ht
      subst ht
      exact ⟨.inl (Nat.zero_lt_succ 0), fun _ => .inl (Nat.zero_lt_succ 0)⟩
    · rcases h with h | h <;> exact nomatch h
  exact ⟨test_witness_invariant _ (by decide) (by decide), pass _, ⟨_, rfl⟩,
    test_witness_invariant _ (by decide) (by decide), pass _, _, rfl, rfl⟩

/-- A running job whose next turn leaves it running, for CursorNeverMovesBack: a LIT, and an EOR at the end of a row. -/
theorem test_witness_cursor :
    let s := Tests.running [0, 0] 5 2 0 5
    (Tests.busy [1, 7]).rleu.rstate = .run ∧
    (∃ t, rleuTurn (Tests.busy [1, 7]) = .next t ∧ t.rleu.rstate = .run) ∧
    (∀ rest, (Tests.busy [1, 7]).rleu.fetch ≠ .token .eor rest) ∧
    s.rleu.rstate = .run ∧ s.rleu.fetch = .token .eor [] ∧ ∃ t, rleuTurn s = .next t ∧ t.rleu.rstate = .run := by
  refine ⟨rfl, ⟨_, rfl, rfl⟩, fun rest h => ?_, rfl, rfl, _, rfl, rfl⟩
  have h' : (Tests.busy [1, 7]).rleu.fetch = .token (.lit 1 7) [] := by decide
  rw [h'] at h
  cases h

/-- A stream and one that differs in the first byte after it, at the job start and in RUN. -/
theorem test_witness_stream_end :
    let s := Tests.running [5, 7] 5 1 0 0
    let m : Memory := [(0, 5), (1, 7), (2, 9)]
    let s' := s.setRleu { s.rleu with inMem := m }
    (∀ a, a < s.rleu.inLen → Memory.read m a = Memory.read s.rleu.inMem a) ∧ s.params = s'.params ∧
    Rleu.SameButFree { s.rleu with inMem := s'.rleu.inMem } s'.rleu := by
  refine ⟨fun a ha => ?_, rfl, rfl, fun _ => ⟨rfl, rfl⟩⟩
  have ha : a < 2 := ha
  interval_cases a <;> decide

/-- For RleuJobEnds, PassEndsInOneOfThreeWays, UnitsKeepTheirInputs and AdpuTurnsNeverRaise. -/
theorem test_witness_turns :
    (Tests.running [5, 7] 5 1 0 0).rleu.rstate = .run ∧
    (∃ t, rleuTurn (Tests.running [5, 7] 5 1 0 0) = .next t) ∧ ∃ t, adpuTurn (Tests.playing [0x70]) = .next t :=
  ⟨rfl, ⟨_, rfl⟩, _, rfl⟩

theorem test_witness_resting :
    State.reset.rleu.rstate ≠ .run ∧ State.reset.rleu.rstate ≠ .compose ∧ State.reset.adpu.astate ≠ .run := by decide

theorem test_witness_never_stop : ∀ m events, State.reset.pending ≠ .host m :: events := by
  intro m events h
  exact absurd h (by simp [State.reset])

end Sys2Proof.Machine
end

section
/-! The scope of MSDEC's steps (spec/00_scope.md): what a turn of each unit may change at all, and which event a step
takes. -/

namespace Sys2Proof.Machine

/-! ### What a turn of RLEU leaves -/

/-- `t` has the parameter registers, the input memories and the marks of written registers of `r`: all of RLEU that only
HOST writes (R20, R61, R62). -/
def Rleu.KeepsHostFields (r t : Rleu) : Prop :=
  t.SameInputs r ∧ t.written = r.written

theorem Rleu.KeepsHostFields.refl (r : Rleu) : r.KeepsHostFields r :=
  ⟨⟨rfl, rfl, rfl, rfl, rfl, rfl, rfl, rfl, rfl, rfl, rfl⟩, rfl⟩

theorem Rleu.raise_keepsHostFields (p : Params) (r : Rleu) (e : ErrCode) (pos row col : Nat) :
    r.KeepsHostFields (Rleu.raise p r e pos row col) :=
  ⟨⟨rfl, rfl, rfl, rfl, rfl, rfl, rfl, rfl, rfl, rfl, rfl⟩, rfl⟩

theorem Rleu.endPass_keepsHostFields (r : Rleu) : r.KeepsHostFields r.endPass :=
  ⟨⟨rfl, rfl, rfl, rfl, rfl, rfl, rfl, rfl, rfl, rfl, rfl⟩, rfl⟩

theorem Rleu.composite_keepsHostFields (r : Rleu) : r.KeepsHostFields r.composite :=
  ⟨⟨rfl, rfl, rfl, rfl, rfl, rfl, rfl, rfl, rfl, rfl, rfl⟩, rfl⟩

/-- The updates of R164 name working registers and outputs only, whichever token it is. -/
theorem TokenDone.keepsHostFields {p : Params} {i : Instr} {r t : Rleu} (h : TokenDone p i r t) :
    r.KeepsHostFields t := by
  rcases h.effect with ⟨-, rfl⟩ | ⟨-, rfl⟩ | ⟨-, rfl⟩ | ⟨dx, dy, -, -, rfl⟩ | ⟨payload, -, -, -, rfl⟩ |
    ⟨n, colour, -, -, ⟨-, rfl⟩ | ⟨-, -, rfl⟩⟩
  all_goals exact ⟨⟨rfl, rfl, rfl, rfl, rfl, rfl, rfl, rfl, rfl, rfl, rfl⟩, rfl⟩

/-- RLEU's turn completes, replaces unit RLEU and nothing else, and leaves what only HOST writes (R3, R20). -/
theorem rleuTurn_frame (s : State) : ∃ r, rleuTurn s = .next (s.setRleu r) ∧ s.rleu.KeepsHostFields r := by
  by_cases hrun : s.rleu.rstate = .run
  · rcases rleuTurn_run_cases hrun with ⟨-, -, ht⟩ | ⟨e, -, -, ht⟩ | ⟨i, rest, r, -, -, -, ht, hr⟩
    · exact ⟨_, ht, s.rleu.endPass_keepsHostFields⟩
    · exact ⟨_, ht, Rleu.raise_keepsHostFields ..⟩
    · exact ⟨r, ht, hr.keepsHostFields⟩
  by_cases hcompose : s.rleu.rstate = .compose
  · exact ⟨_, rleuTurn_compose hcompose, s.rleu.composite_keepsHostFields⟩
  · exact ⟨s.rleu, rleuTurn_resting hrun hcompose, .refl _⟩

/-! ### What a turn of ADPU leaves -/

/-- `t` has AIN_LEN, AIN and the mark of AIN_LEN of `d`: all of ADPU that only HOST writes (R20, R67). -/
def Adpu.KeepsHostFields (d t : Adpu) : Prop :=
  t.ainLen = d.ainLen ∧ t.ain = d.ain ∧ t.ainLenWritten = d.ainLenWritten

/-- ADPU's turn completes, replaces unit ADPU and nothing else, and leaves what only HOST writes (R3, R20). -/
theorem adpuTurn_frame (s : State) : ∃ d, adpuTurn s = .next (s.setAdpu d) ∧ s.adpu.KeepsHostFields d := by
  by_cases hrun : s.adpu.astate = .run
  · rcases Nat.lt_or_ge s.adpu.apos s.adpu.ainLen with hleft | hconsumed
    · exact ⟨_, adpuTurn_sample hrun hleft, rfl, rfl, rfl⟩
    · exact ⟨_, adpuTurn_finish hrun hconsumed, rfl, rfl, rfl⟩
  · exact ⟨s.adpu, adpuTurn_resting hrun, rfl, rfl, rfl⟩

/-! ### The event a step takes -/

theorem step_pending_rleu {s : State} {events : List Event} (h : s.pending = .rleu :: events) :
    step s = rleuTurn (s.setPending events) := by
  unfold step
  rw [h]

theorem step_pending_adpu {s : State} {events : List Event} (h : s.pending = .adpu :: events) :
    step s = adpuTurn (s.setPending events) := by
  unfold step
  rw [h]

theorem step_pending_host {s : State} {m : HostMove} {events : List Event} (h : s.pending = .host m :: events) :
    step s = hostMove m (s.setPending events) := by
  unfold step
  rw [h]

theorem step_pending_nil {s : State} (h : s.pending = []) :
    step s = if s.rleu.accepts then adpuTurn s else rleuTurn s := by
  unfold step
  rw [h]

/-- With no event pending, a running RLEU takes the turn (log entry 3). -/
theorem step_idle_rleu {s : State} (h : s.pending = []) (hr : s.rleu.rstate = .run ∨ s.rleu.rstate = .compose) :
    step s = rleuTurn s := by
  have hbusy : ¬ s.rleu.accepts = true := fun ha =>
    hr.elim ((Rleu.accepts_iff _).mp ha).1 ((Rleu.accepts_iff _).mp ha).2
  rw [step_pending_nil h, if_neg hbusy]

/-- With no event pending and RLEU at rest, ADPU takes the turn (log entry 3). -/
theorem step_idle_adpu {s : State} (h : s.pending = []) (hrun : s.rleu.rstate ≠ .run)
    (hcompose : s.rleu.rstate ≠ .compose) : step s = adpuTurn s := by
  rw [step_pending_nil h, if_pos ((Rleu.accepts_iff _).mpr ⟨hrun, hcompose⟩)]

/-! ### The obligations -/

/-- Settles O47: each unit's turn replaces that unit alone, by one with the same fields of HOST's. -/
theorem unitsKeepTheirInputs : Obligations.UnitsKeepTheirInputs := by
  refine ⟨fun s t ht => ?_, fun s t ht => ?_⟩
  · obtain ⟨r, hr, hinputs, hwritten⟩ := rleuTurn_frame s
    obtain rfl : s.setRleu r = t := Host.Outcome.next.inj (hr.symm.trans ht)
    exact ⟨hinputs, hwritten, rfl, rfl, rfl⟩
  · obtain ⟨d, hd, hlen, hain, hwritten⟩ := adpuTurn_frame s
    obtain rfl : s.setAdpu d = t := Host.Outcome.next.inj (hd.symm.trans ht)
    exact ⟨hlen, hain, hwritten, rfl, rfl, rfl⟩

/-- Settles O48: the turns of a unit outside RUN and COMPOSE. -/
theorem restingUnitsDoNothing : Obligations.RestingUnitsDoNothing :=
  fun _ => ⟨rleuTurn_resting, adpuTurn_resting⟩

/-- Settles O56, by the form of the list of pending events. -/
theorem stepTakesTheNextEvent : Obligations.StepTakesTheNextEvent :=
  fun _ _ => ⟨step_pending_rleu, step_pending_adpu, fun _ => step_pending_host, step_idle_rleu, step_idle_adpu⟩

end Sys2Proof.Machine
end

section
/-! The registers (spec/10_state.md): how HOST reads and writes them, which of them a token, a job start and a move of
HOST change, and the invariants over them. -/

namespace Sys2Proof.Machine

/-! ### The gates of HOST's writes -/

theorem Rleu.accepts_of_resting {r : Rleu} (hrun : r.rstate ≠ .run) (hcompose : r.rstate ≠ .compose) :
    r.accepts = true :=
  r.accepts_iff.mpr ⟨hrun, hcompose⟩

theorem Rleu.accepts_of_running {r : Rleu} (h : r.rstate = .run ∨ r.rstate = .compose) : r.accepts = false :=
  Bool.eq_false_iff.mpr fun ha => h.elim (r.accepts_iff.mp ha).1 (r.accepts_iff.mp ha).2

theorem Adpu.accepts_of_running {d : Adpu} (h : d.astate = .run) : d.accepts = false :=
  Bool.eq_false_iff.mpr fun ha => d.accepts_iff.mp ha h

/-- RLEU in RUN or COMPOSE refuses a write of a parameter register (R30, R268). -/
theorem writeRleuParameter_running {s : State} (h : s.rleu.accepts = false) (r : Rleu) :
    writeRleuParameter s r = .refused .parameterWriteWhileRunning :=
  if_neg (by rw [h]; exact Bool.false_ne_true)

/-- RLEU in RUN or COMPOSE refuses a write of a byte of IN or KEY (R69, R268). -/
theorem writeRleuMemory_running {s : State} (h : s.rleu.accepts = false) (r : Rleu) :
    writeRleuMemory s r = .refused .memoryWriteWhileRunning :=
  if_neg (by rw [h]; exact Bool.false_ne_true)

theorem writeRleuParameter_resting {s : State} (h : s.rleu.accepts = true) (r : Rleu) :
    writeRleuParameter s r = .next (s.setRleu r) :=
  if_pos h

theorem writeRleuMemory_resting {s : State} (h : s.rleu.accepts = true) (r : Rleu) :
    writeRleuMemory s r = .next (s.setRleu r) :=
  if_pos h

theorem lengthFits_iff (p : Params) (v : Nat) : lengthFits p v = true ↔ v < 2 ^ p.lenBits :=
  decide_eq_true_iff

/-- A length that fits is written like any other parameter (R27). -/
theorem writeRleuLength_fits {s : State} {v : Nat} (h : v < 2 ^ s.params.lenBits) (r : Rleu) :
    writeRleuLength s v r = writeRleuParameter s r :=
  if_pos ((lengthFits_iff _ _).mpr h)

theorem lengthFits_tooWide {p : Params} {v : Nat} (h : 2 ^ p.lenBits ≤ v) : lengthFits p v = false :=
  Bool.eq_false_iff.mpr fun hf => absurd ((lengthFits_iff _ _).mp hf) (Nat.not_lt.mpr h)

/-- A length that LEN_BITS bits do not hold is refused (log entry 14). -/
theorem writeRleuLength_tooWide {s : State} {v : Nat} (h : 2 ^ s.params.lenBits ≤ v) (r : Rleu) :
    writeRleuLength s v r = .refused .lengthTooWide :=
  if_neg (by rw [lengthFits_tooWide h]; exact Bool.false_ne_true)

/-- A write of a parameter register that completes was made at rest and replaces unit RLEU. -/
theorem writeRleuParameter_next {s t : State} {r : Rleu} (h : writeRleuParameter s r = .next t) :
    s.rleu.accepts = true ∧ t = s.setRleu r := by
  cases ha : s.rleu.accepts
  · rw [writeRleuParameter_running ha] at h
    cases h
  · rw [writeRleuParameter_resting ha] at h
    exact ⟨rfl, (Host.Outcome.next.inj h).symm⟩

/-- A write of a byte of IN or KEY that completes was made at rest and replaces unit RLEU. -/
theorem writeRleuMemory_next {s t : State} {r : Rleu} (h : writeRleuMemory s r = .next t) :
    s.rleu.accepts = true ∧ t = s.setRleu r := by
  cases ha : s.rleu.accepts
  · rw [writeRleuMemory_running ha] at h
    cases h
  · rw [writeRleuMemory_resting ha] at h
    exact ⟨rfl, (Host.Outcome.next.inj h).symm⟩

/-- A write of a length that completes was of a length that fits (R27, R28). -/
theorem writeRleuLength_next {s t : State} {v : Nat} {r : Rleu} (h : writeRleuLength s v r = .next t) :
    v < 2 ^ s.params.lenBits ∧ s.rleu.accepts = true ∧ t = s.setRleu r := by
  rcases Nat.lt_or_ge v (2 ^ s.params.lenBits) with hv | hv
  · rw [writeRleuLength_fits hv] at h
    exact ⟨hv, writeRleuParameter_next h⟩
  · rw [writeRleuLength_tooWide hv] at h
    cases h

/-- A write of AIN_LEN, in the order of its tests (R43, R268; log entry 14). -/
theorem hostMove_writeAinLen_eq (s : State) (v : Nat) :
    hostMove (.writeAinLen v) s =
      if 2 ^ s.params.lenBits ≤ v then .refused .lengthTooWide
      else if s.adpu.accepts then .next (s.setAdpu { s.adpu with ainLen := v, ainLenWritten := true })
      else .refused .parameterWriteWhileRunning := by
  show (if !lengthFits s.params v then _ else _) = _
  rcases Nat.lt_or_ge v (2 ^ s.params.lenBits) with hv | hv
  · rw [(lengthFits_iff _ _).mpr hv, if_neg (Nat.not_le.mpr hv)]
    rfl
  · rw [lengthFits_tooWide hv, if_pos hv]
    rfl

/-- RLE_START completes, at rest and with the parameters written, in the job-start step (R120, R264, R269). -/
theorem rleStart_next {s t : State} (h : rleStart s = .next t) :
    s.rleu.accepts = true ∧ t = s.setRleu (Rleu.jobStart s.params s.rleu) := by
  unfold rleStart at h
  cases ha : s.rleu.accepts <;> cases hw : s.rleu.parametersWritten <;> rw [ha, hw] at h <;> cases h
  exact ⟨rfl, rfl⟩

/-- ADP_START completes, at rest and with AIN_LEN written, in the job-start step (R200, R265, R269). -/
theorem adpStart_next {s t : State} (h : adpStart s = .next t) :
    s.adpu.accepts = true ∧ t = s.setAdpu (Adpu.jobStart s.params s.adpu) := by
  unfold adpStart at h
  cases ha : s.adpu.accepts <;> cases hw : s.adpu.ainLenWritten <;> rw [ha, hw] at h <;> cases h
  exact ⟨rfl, rfl⟩

/-! ### The parameters a start needs -/

/-- A job whose parameters are not all written since RESET (R264). -/
theorem Rleu.parametersWritten_eq_false {r : Rleu}
    (h : r.written.frameW = false ∨ r.written.frameH = false ∨ r.written.inLen = false ∨
      (r.rctrl.cwSet = true ∧ r.written.canvasW = false) ∨ (r.rctrl.chSet = true ∧ r.written.canvasH = false) ∨
      (r.rctrl.keyPresent = true ∧ r.written.keyLen = false)) :
    r.parametersWritten = false := by
  unfold Rleu.parametersWritten
  rcases h with h | h | h | ⟨h, h'⟩ | ⟨h, h'⟩ | ⟨h, h'⟩
  all_goals simp [*]

theorem rleStart_running {s : State} (h : s.rleu.accepts = false) : rleStart s = .refused .startWhileRunning :=
  if_pos (by rw [h]; rfl)

theorem rleStart_unwritten {s : State} (h : s.rleu.accepts = true) (hw : s.rleu.parametersWritten = false) :
    rleStart s = .refused .parameterNeverWritten := by
  unfold rleStart
  rw [h, hw]
  rfl

theorem adpStart_running {s : State} (h : s.adpu.accepts = false) : adpStart s = .refused .startWhileRunning :=
  if_pos (by rw [h]; rfl)

theorem adpStart_unwritten {s : State} (h : s.adpu.accepts = true) (hw : s.adpu.ainLenWritten = false) :
    adpStart s = .refused .parameterNeverWritten := by
  unfold adpStart
  rw [h, hw]
  rfl

/-! ### The obligations about HOST's writes and reads -/

/-- Settles O40: each refused move is refused by the gate it passes. -/
theorem forbiddenHostMovesAreRefused : Obligations.ForbiddenHostMovesAreRefused := by
  intro s
  refine ⟨fun h => ?running, fun h => ?playing, fun hrun hcompose hw => ?unwritten, fun hrun hw => ?ainLenUnwritten,
    fun v hv => ?tooWide⟩
  case running =>
    have ha := Rleu.accepts_of_running h
    have parameter := writeRleuParameter_running ha
    have memory := writeRleuMemory_running ha
    exact ⟨rleStart_running ha, fun _ => parameter _, fun _ => parameter _, fun _ => parameter _, fun _ => parameter _,
      fun _ => parameter _, fun _ => parameter _, fun _ hv => (writeRleuLength_fits hv _).trans (parameter _),
      fun _ hv => (writeRleuLength_fits hv _).trans (parameter _), fun _ => parameter _, fun _ _ => memory _,
      fun _ _ => memory _⟩
  case playing =>
    have ha := Adpu.accepts_of_running h
    have busy : ¬ s.adpu.accepts = true := Bool.eq_false_iff.mp ha
    refine ⟨adpStart_running ha, fun v hv => ?_, fun _ _ => if_neg busy⟩
    rw [hostMove_writeAinLen_eq, if_neg (Nat.not_le.mpr hv), if_neg busy]
  case unwritten =>
    exact rleStart_unwritten (Rleu.accepts_of_resting hrun hcompose) (Rleu.parametersWritten_eq_false hw)
  case ainLenUnwritten => exact adpStart_unwritten (s.adpu.accepts_iff.mpr hrun) hw
  case tooWide =>
    exact ⟨writeRleuLength_tooWide hv _, writeRleuLength_tooWide hv _,
      (hostMove_writeAinLen_eq s v).trans (if_pos hv)⟩

/-- Settles O54: each write passes its gate, and a byte that is written is read back (`Memory.read_write`). -/
theorem hostWritesReachTheirRegister : Obligations.HostWritesReachTheirRegister := by
  intro s
  refine ⟨fun hrun hcompose => ?_, fun hrun => ?_⟩
  · have ha := Rleu.accepts_of_resting hrun hcompose
    have parameter := writeRleuParameter_resting ha
    have memory := writeRleuMemory_resting ha
    exact ⟨fun _ => parameter _, fun _ => parameter _, fun _ => parameter _, fun _ => parameter _,
      fun _ => parameter _, fun _ => parameter _, fun _ => parameter _,
      fun _ hv => ⟨(writeRleuLength_fits hv _).trans (parameter _), (writeRleuLength_fits hv _).trans (parameter _)⟩,
      fun a v => ⟨_, memory _, Memory.read_write _ a v⟩, fun a v => ⟨_, memory _, Memory.read_write _ a v⟩⟩
  · have ha := s.adpu.accepts_iff.mpr hrun
    refine ⟨fun v hv => ?_, fun a v => ⟨_, if_pos ha, Memory.read_write _ a v⟩⟩
    rw [hostMove_writeAinLen_eq, if_neg (Nat.not_le.mpr hv), if_pos ha]

/-- A flag is read as 1 when it is set, else as 0. -/
theorem toNat_cast_eq_ite (b : Bool) : ((b.toNat : Nat) : Int) = if b then 1 else 0 := by
  cases b <;> rfl

/-- RCTRL's number has KEY_PRESENT, CW_SET and CH_SET as its bits 0, 1 and 2, and no other (R29). -/
theorem rctrlNumber_bits (x : Rctrl) :
    rctrlNumber x < 8 ∧ (rctrlNumber x).testBit 0 = x.keyPresent ∧ (rctrlNumber x).testBit 1 = x.cwSet ∧
      (rctrlNumber x).testBit 2 = x.chSet := by
  obtain ⟨keyPresent, cwSet, chSet⟩ := x
  revert keyPresent cwSet chSet
  decide

/-- Settles O55: every read is the register's own value; the flags by `toNat_cast_eq_ite`, RCTRL by
`rctrlNumber_bits`. -/
theorem registerEncodings : Obligations.RegisterEncodings :=
  ⟨rfl, rfl, rfl, rctrlNumber_bits, fun _ =>
    ⟨rfl, rfl, rfl, rfl, rfl, rfl, rfl, rfl, rfl, rfl, rfl, rfl, rfl, rfl, rfl, rfl, rfl, rfl, rfl,
      toNat_cast_eq_ite _, rfl, rfl, rfl, rfl, rfl, rfl, rfl, rfl, rfl, toNat_cast_eq_ite _, rfl⟩⟩

/-! ### The job-start step -/

/-- Settles O30: the job begins, and a stream of at most two bytes makes it end at once. -/
theorem shortStreamGivesZeroes : Obligations.ShortStreamGivesZeroes := by
  intro p r hg hk hc hl
  refine ⟨_, ?_, Memory.read_zeroBelow r.pix r.jobPixels⟩
  have noHeader : ¬ (2 < r.inLen ∧ r.header.isSome) := fun h => absurd h.1 (Nat.not_lt.mpr hl)
  rw [Rleu.jobStart_begin hg hk hc, Rleu.jobBegin_eq, if_neg noHeader, if_pos hl]
  rfl

/-- Settles O31: the job begins, and POS is where the header test leaves it. -/
theorem jobStartInitialises : Obligations.JobStartInitialises := by
  intro p r hg hk hc hl
  refine ⟨_, if 2 < r.inLen ∧ r.header.isSome then 2 else 0, ?_, ?_, Memory.read_zeroBelow r.pix r.jobPixels⟩
  · rw [Rleu.jobStart_begin hg hk hc, Rleu.jobBegin_eq, if_neg (Nat.not_le.mpr hl)]
    rfl
  · split
    · exact .inr rfl
    · exact .inl rfl

end Sys2Proof.Machine
end

section
/-! What a token does to the working registers (spec/10_state.md R34 to R39, R42), said once for all six tokens. -/

namespace Sys2Proof.Machine

/-- A token takes an even number of bytes, at least two (R42 (a), R91). -/
theorem lengthBytes_of_isToken {i : Instr} (h : i.isToken = true) : 2 ≤ i.lengthBytes ∧ i.lengthBytes % 2 = 0 := by
  cases i with
  | hdr => cases h
  | sample c => cases h
  | eor => decide
  | eoi => decide
  | trn => decide
  | repos dx dy => simp [Instr.lengthBytes]
  | lit n colour => simp [Instr.lengthBytes]
  | raw payload =>
    simp only [Instr.lengthBytes]
    omega

/-- RAW moves POS by its own length (R91, R162). -/
theorem rawLength_eq (payload : List Byte) : rawLength payload.length = (Instr.raw payload).lengthBytes :=
  (Nat.add_assoc ..).symm

/-- The record that an armed literal run of `n` pixels appends at its end: `t` is RLEU after it in RLEU `r` (R152). -/
structure AppendsRecord (p : Params) (n : Nat) (r t : Rleu) : Prop where
  run : 0 < n
  armed : r.tArmed = true
  inside : r.row < r.ch ∧ r.col + n ≤ r.cw
  room : withinCap p.trlCap (r.trlCount + 1) = true
  trl : t.trl = r.trl ++ [⟨r.tRow, r.tCol, r.col + n - r.tCol⟩]
  disarmed : t.tArmed = false
  row : t.row = r.row
  col : t.col = r.col + n

section Token

variable {p : Params} {i : Instr} {r t : Rleu}

theorem TokenDone.isToken (h : TokenDone p i r t) : i.isToken = true := by
  rcases h.effect with ⟨rfl, -⟩ | ⟨rfl, -⟩ | ⟨rfl, -⟩ | ⟨dx, dy, rfl, -⟩ | ⟨payload, rfl, -⟩ | ⟨n, colour, rfl, -⟩
  all_goals rfl

/-- POS moves by the token's length (R34, R98). -/
theorem TokenDone.pos_eq (h : TokenDone p i r t) : t.pos = r.pos + i.lengthBytes := by
  rcases h.effect with ⟨rfl, rfl⟩ | ⟨rfl, rfl⟩ | ⟨rfl, rfl⟩ | ⟨dx, dy, rfl, -, rfl⟩ | ⟨payload, rfl, -, -, rfl⟩ |
    ⟨n, colour, rfl, -, ⟨-, rfl⟩ | ⟨-, -, rfl⟩⟩
  · rfl
  · rfl
  · rfl
  · rfl
  · exact congrArg (r.pos + ·) (rawLength_eq payload)
  · rfl
  · rfl

/-- A token that completes leaves the effective canvas and ERR_CODE (R164). -/
theorem TokenDone.canvas_errCode (h : TokenDone p i r t) :
    t.cwEff = r.cwEff ∧ t.chEff = r.chEff ∧ t.errCode = r.errCode := by
  rcases h.effect with ⟨-, rfl⟩ | ⟨-, rfl⟩ | ⟨-, rfl⟩ | ⟨dx, dy, -, -, rfl⟩ | ⟨payload, -, -, -, rfl⟩ |
    ⟨n, colour, -, -, ⟨-, rfl⟩ | ⟨-, -, rfl⟩⟩
  all_goals exact ⟨rfl, rfl, rfl⟩

theorem TokenDone.cw_eq (h : TokenDone p i r t) : t.cw = r.cw :=
  congrArg BitVec.toNat h.canvas_errCode.1

theorem TokenDone.ch_eq (h : TokenDone p i r t) : t.ch = r.ch :=
  congrArg BitVec.toNat h.canvas_errCode.2.1

/-- A token that completes leaves RSTATE, or ends the pass with T_ARMED clear (R132, R154, R155). -/
theorem TokenDone.rstate_cases (h : TokenDone p i r t) :
    t.rstate = r.rstate ∨ (t.rstate = .compose ∧ t.tArmed = false) := by
  rcases h.effect with ⟨-, rfl⟩ | ⟨-, rfl⟩ | ⟨-, rfl⟩ | ⟨dx, dy, -, -, rfl⟩ | ⟨payload, -, -, -, rfl⟩ |
    ⟨n, colour, -, -, ⟨-, rfl⟩ | ⟨-, -, rfl⟩⟩
  · show ite _ _ _ = _ ∨ ite _ _ _ = _ ∧ _
    split
    · exact .inr ⟨rfl, rfl⟩
    · exact .inl rfl
  · exact .inr ⟨rfl, rfl⟩
  all_goals exact .inl rfl

/-- EOR takes the cursor to FRAME_X in the next row (R35, R153). -/
theorem TokenDone.eor_cursor (h : TokenDone p .eor r t) : t.row = r.row + 1 ∧ t.col = r.frameX.toNat := by
  rcases h.effect with ⟨-, rfl⟩ | ⟨h, -⟩ | ⟨h, -⟩ | ⟨_, _, h, -⟩ | ⟨_, h, -⟩ | ⟨_, _, h, -⟩
  · exact ⟨rfl, rfl⟩
  all_goals cases h

/-- Every other token moves the cursor down and to the right only (R42 (b), (c)). -/
theorem TokenDone.row_col_le (h : TokenDone p i r t) (hi : i ≠ .eor) : r.row ≤ t.row ∧ r.col ≤ t.col := by
  rcases h.effect with ⟨he, -⟩ | ⟨-, rfl⟩ | ⟨-, rfl⟩ | ⟨dx, dy, -, -, rfl⟩ | ⟨payload, -, -, -, rfl⟩ |
    ⟨n, colour, -, -, ⟨-, rfl⟩ | ⟨-, -, rfl⟩⟩
  · exact absurd he hi
  all_goals simp

theorem TokenDone.row_le (h : TokenDone p i r t) : r.row ≤ t.row := by
  by_cases hi : i = .eor
  · subst hi
    have := h.eor_cursor.1
    omega
  · exact (h.row_col_le hi).1

/-- The cursor never moves back in reading order (R42 (d)). -/
theorem TokenDone.cursor_forward (h : TokenDone p i r t) : r.row < t.row ∨ (r.row = t.row ∧ r.col ≤ t.col) := by
  by_cases hi : i = .eor
  · subst hi
    have := h.eor_cursor.1
    omega
  · have := h.row_col_le hi
    omega

/-- An armed flag after a token was set by it at its cursor, or was set before and the position is still remembered
(R38, R158, R161, R163). -/
theorem TokenDone.armed_cases (h : TokenDone p i r t) (ha : t.tArmed = true) :
    (t.tRow = t.row ∧ t.tCol = t.col) ∨
    (r.tArmed = true ∧ t.tRow = r.tRow ∧ t.tCol = r.tCol ∧ r.row ≤ t.row ∧ r.col ≤ t.col) := by
  rcases h.effect with ⟨-, rfl⟩ | ⟨-, rfl⟩ | ⟨-, rfl⟩ | ⟨dx, dy, -, -, rfl⟩ | ⟨payload, -, -, -, rfl⟩ |
    ⟨n, colour, -, -, ⟨hclear, rfl⟩ | ⟨-, -, rfl⟩⟩
  · cases ha
  · cases ha
  · exact .inl ⟨rfl, rfl⟩
  · exact .inr ⟨ha, rfl, rfl, Nat.le_add_right .., Nat.le_add_right ..⟩
  · exact .inr ⟨ha, rfl, rfl, Nat.le_refl _, Nat.le_add_right ..⟩
  · exact nomatch hclear.symm.trans ha
  · cases ha

/-- A token leaves TRL, or appends the one record of an armed literal run (R152). -/
theorem TokenDone.trl_cases (h : TokenDone p i r t) (hw : i.wellFormed = true) :
    t.trl = r.trl ∨ ∃ n, AppendsRecord p n r t := by
  rcases h.effect with ⟨-, rfl⟩ | ⟨-, rfl⟩ | ⟨-, rfl⟩ | ⟨dx, dy, -, -, rfl⟩ | ⟨payload, -, -, -, rfl⟩ |
    ⟨n, colour, rfl, hc, ⟨-, rfl⟩ | ⟨ha, hroom, rfl⟩⟩
  · exact .inl rfl
  · exact .inl rfl
  · exact .inl rfl
  · exact .inl rfl
  · exact .inl rfl
  · exact .inl rfl
  · have hne : n ≠ 0 := by simpa [Instr.wellFormed] using hw
    have hn : zext n ≠ 0 := fun h0 => hne (BitVec.eq_of_toNat_eq h0)
    exact .inr ⟨zext n, Nat.pos_of_ne_zero hn, ha, hc.resolve_left hn, hroom, rfl, rfl, rfl, rfl⟩

end Token

/-! ### T_ARMED after an instruction -/

/-- HDR and SAMPLE, the two instructions that are no tokens, leave T_ARMED (R127, R207). -/
theorem exec_tArmed_of_not_isToken {i : Instr} {s t : State} (hi : i.isToken = false) (h : exec i s = .next t) :
    t.rleu.tArmed = s.rleu.tArmed := by
  cases i with
  | hdr => exact Host.Outcome.next.inj h ▸ rfl
  | sample c => exact Host.Outcome.next.inj h ▸ rfl
  | _ => cases hi

/-- Settles O22: a token that does not raise has one of the effects of R164. -/
theorem armedFlagRule : Obligations.ArmedFlagRule := by
  intro i s t _ h hok
  by_cases hi : i.isToken = true
  · rcases exec_token_cases hi s with ⟨e, -, he⟩ | ⟨r, hr, hdone⟩
    · obtain rfl := Host.Outcome.next.inj (he.symm.trans h)
      exact absurd rfl hok
    · obtain rfl := Host.Outcome.next.inj (hr.symm.trans h)
      rcases hdone.effect with ⟨rfl, rfl⟩ | ⟨rfl, rfl⟩ | ⟨rfl, rfl⟩ | ⟨dx, dy, rfl, -, rfl⟩ |
        ⟨payload, rfl, -, -, rfl⟩ | ⟨n, colour, rfl, -, ⟨hclear, rfl⟩ | ⟨-, -, rfl⟩⟩
      · rfl
      · rfl
      · rfl
      · rfl
      · rfl
      · exact hclear
      · rfl
  · rw [exec_tArmed_of_not_isToken (Bool.eq_false_iff.mpr hi) h]
    cases i with
    | hdr => rfl
    | sample c => rfl
    | _ => exact absurd rfl hi

/-! ### The cursor -/

/-- A turn of RLEU that leaves it in RUN completes a token (R129 to R132). -/
theorem rleuTurn_stays_running {s t : State} (hrun : s.rleu.rstate = .run) (h : rleuTurn s = .next t)
    (ht : t.rleu.rstate = .run) :
    ∃ i rest, s.rleu.fetch = .token i rest ∧ s.rleu.pos + i.lengthBytes ≤ s.rleu.inLen ∧
      TokenDone s.params i s.rleu t.rleu := by
  rcases rleuTurn_run_cases hrun with ⟨-, -, he⟩ | ⟨e, -, -, he⟩ | ⟨i, rest, r, hf, -, hl, hr, hdone⟩
  · obtain rfl := Host.Outcome.next.inj (he.symm.trans h)
    cases ht
  · obtain rfl := Host.Outcome.next.inj (he.symm.trans h)
    cases ht
  · obtain rfl := Host.Outcome.next.inj (hr.symm.trans h)
    exact ⟨i, rest, hf, hl, hdone⟩

/-- Settles O45, from what a completed token does to POS and the cursor. -/
theorem cursorNeverMovesBack : Obligations.CursorNeverMovesBack := by
  intro s t hrun h ht
  obtain ⟨i, rest, hf, hl, hdone⟩ := rleuTurn_stays_running hrun h ht
  obtain ⟨htwo, heven⟩ := lengthBytes_of_isToken hdone.isToken
  have hpos := hdone.pos_eq
  have hlen : t.rleu.inLen = s.rleu.inLen := hdone.keepsHostFields.1.inLen
  refine ⟨by omega, by omega, by omega, hdone.cursor_forward, fun rest' heor => ?_, fun hne => ?_⟩
  · obtain ⟨rfl, -⟩ := Decoded.token.inj (hf.symm.trans heor)
    exact hdone.eor_cursor
  · refine (hdone.row_col_le fun hi => hne rest ?_).2
    rw [hf, hi]

end Sys2Proof.Machine
end

section
/-! Every way a step changes a unit, said once for the whole machine: each invariant over the registers is kept because
every one of these moves keeps it. -/

namespace Sys2Proof.Machine

/-- A write of HOST to RLEU that completes: parameter registers of any value, a length that fits its register, or a byte
of an input memory (R20, R27, R28, R61, R62). -/
inductive Rleu.HostWrite (p : Params) (r : Rleu) : Rleu → Prop where
  | parameters (frameW frameH canvasW canvasH frameX frameY : Word) (rctrl : Rctrl) (written : RleuWritten) :
      HostWrite p r { r with
        frameW := frameW, frameH := frameH, canvasW := canvasW, canvasH := canvasH, frameX := frameX,
        frameY := frameY, rctrl := rctrl, written := written }
  | inLen (v : Nat) (written : RleuWritten) (fits : v < 2 ^ p.lenBits) :
      HostWrite p r { r with inLen := v, written := written }
  | keyLen (v : Nat) (written : RleuWritten) (fits : v < 2 ^ p.lenBits) :
      HostWrite p r { r with keyLen := v, written := written }
  | inByte (a : Nat) (v : Byte) : HostWrite p r { r with inMem := Memory.write r.inMem a v }
  | keyByte (a : Nat) (v : Byte) : HostWrite p r { r with keyMem := Memory.write r.keyMem a v }

/-- `t` is RLEU after a step of the machine in which RLEU was `r`. -/
inductive Rleu.Moves (p : Params) (r : Rleu) : Rleu → Prop where
  | stay : Moves p r r
  | token {i : Instr} {t : Rleu} (run : r.rstate = .run) (wf : i.wellFormed = true)
      (present : r.pos + i.lengthBytes ≤ r.inLen) (done : TokenDone p i r t) : Moves p r t
  | endPass (run : r.rstate = .run) : Moves p r r.endPass
  | composite (compose : r.rstate = .compose) : Moves p r r.composite
  | raise {e : ErrCode} (error : e ≠ .none) (pos row col : Nat) : Moves p r (Rleu.raise p r e pos row col)
  | begin (geometry : r.geometryOverflows = false) (keySize : r.keySizeMismatches = false)
      (capacity : withinCap p.pixCap r.jobPixels = true) : Moves p r r.jobBegin
  | write {t : Rleu} (rest : r.accepts = true) (w : r.HostWrite p t) : Moves p r t
  | reset : Moves p r (Rleu.afterReset p r)

/-- ADPU after SAMPLE (R207 to R212). -/
def Adpu.afterSample (d : Adpu) (c : Code) : Adpu :=
  { d.advance with
    predictor := nextPredictor d.predictor c (stepSize d.stepIndex)
    stepIndex := nextStepIndex d.stepIndex c
    pcm := writeSample d.pcm d.outCount (nextPredictor d.predictor c (stepSize d.stepIndex))
    outCount := d.outCount + 1 }

theorem exec_sample_eq (c : Code) (s : State) : exec (.sample c) s = .next (s.setAdpu (s.adpu.afterSample c)) := rfl

/-- `t` is ADPU after a step of the machine in which ADPU was `d`. -/
inductive Adpu.Moves (p : Params) (d : Adpu) : Adpu → Prop where
  | stay : Moves p d d
  | sample (c : Code) (run : d.astate = .run) (left : d.apos < d.ainLen) : Moves p d (d.afterSample c)
  | finish (run : d.astate = .run) (consumed : d.ainLen ≤ d.apos) : Moves p d d.finish
  | start : Moves p d (Adpu.jobStart p d)
  | writeAinLen (rest : d.accepts = true) (v : Nat) (fits : v < 2 ^ p.lenBits) :
      Moves p d { d with ainLen := v, ainLenWritten := true }
  | writeAin (rest : d.accepts = true) (a : Nat) (v : Byte) : Moves p d { d with ain := Memory.write d.ain a v }
  | reset : Moves p d (Adpu.afterReset p d)

/-- `t` is the machine after a step from `s`, the pending events apart. -/
structure State.Moves (s t : State) : Prop where
  params : t.params = s.params
  rleu : s.rleu.Moves s.params t.rleu
  adpu : s.adpu.Moves s.params t.adpu

theorem State.Moves.of_rleu {s : State} {r : Rleu} (h : s.rleu.Moves s.params r) : s.Moves (s.setRleu r) :=
  ⟨rfl, h, .stay⟩

theorem State.Moves.of_adpu {s : State} {d : Adpu} (h : s.adpu.Moves s.params d) : s.Moves (s.setAdpu d) :=
  ⟨rfl, .stay, h⟩

theorem State.Moves.refl (s : State) : s.Moves s :=
  ⟨rfl, .stay, .stay⟩

/-! ### The turns -/

theorem rleuTurn_moves {s t : State} (h : rleuTurn s = .next t) : s.Moves t := by
  by_cases hrun : s.rleu.rstate = .run
  · rcases rleuTurn_run_cases hrun with ⟨-, -, he⟩ | ⟨e, he, -, hx⟩ | ⟨i, rest, r, -, hw, hl, hr, hdone⟩
    · obtain rfl := Host.Outcome.next.inj (he.symm.trans h)
      exact .of_rleu (.endPass hrun)
    · obtain rfl := Host.Outcome.next.inj (hx.symm.trans h)
      exact .of_rleu (.raise (by rintro rfl; simp at he) ..)
    · obtain rfl := Host.Outcome.next.inj (hr.symm.trans h)
      exact .of_rleu (.token hrun hw hl hdone)
  by_cases hcompose : s.rleu.rstate = .compose
  · obtain rfl := Host.Outcome.next.inj ((rleuTurn_compose hcompose).symm.trans h)
    exact .of_rleu (.composite hcompose)
  · obtain rfl := Host.Outcome.next.inj ((rleuTurn_resting hrun hcompose).symm.trans h)
    exact .refl s

theorem adpuTurn_moves {s t : State} (h : adpuTurn s = .next t) : s.Moves t := by
  by_cases hrun : s.adpu.astate = .run
  · rcases Nat.lt_or_ge s.adpu.apos s.adpu.ainLen with hleft | hconsumed
    · obtain rfl := Host.Outcome.next.inj (((adpuTurn_sample hrun hleft).trans (exec_sample_eq _ s)).symm.trans h)
      exact .of_adpu (.sample _ hrun hleft)
    · obtain rfl := Host.Outcome.next.inj ((adpuTurn_finish hrun hconsumed).symm.trans h)
      exact .of_adpu (.finish hrun hconsumed)
  · obtain rfl := Host.Outcome.next.inj ((adpuTurn_resting hrun).symm.trans h)
    exact .refl s

/-! ### The moves of HOST -/

theorem writeRleuParameter_moves {s t : State} {r : Rleu} (h : writeRleuParameter s r = .next t)
    (hw : s.rleu.HostWrite s.params r) : s.Moves t := by
  obtain ⟨ha, rfl⟩ := writeRleuParameter_next h
  exact .of_rleu (.write ha hw)

theorem writeRleuLength_moves {s t : State} {v : Nat} {r : Rleu} (h : writeRleuLength s v r = .next t)
    (hw : v < 2 ^ s.params.lenBits → s.rleu.HostWrite s.params r) : s.Moves t := by
  obtain ⟨hv, ha, rfl⟩ := writeRleuLength_next h
  exact .of_rleu (.write ha (hw hv))

theorem writeRleuMemory_moves {s t : State} {r : Rleu} (h : writeRleuMemory s r = .next t)
    (hw : s.rleu.HostWrite s.params r) : s.Moves t := by
  obtain ⟨ha, rfl⟩ := writeRleuMemory_next h
  exact .of_rleu (.write ha hw)

theorem Rleu.jobStart_moves (p : Params) (r : Rleu) : r.Moves p (Rleu.jobStart p r) := by
  rcases Rleu.jobStart_cases p r with ⟨e, he, hx⟩ | ⟨hg, hk, hc, hx⟩
  · rw [hx]
    exact .raise (by rintro rfl; simp at he) ..
  · rw [hx]
    exact .begin hg hk hc

theorem hostMove_writeAinLen_moves {s t : State} {v : Nat} (h : hostMove (.writeAinLen v) s = .next t) :
    s.Moves t := by
  rw [hostMove_writeAinLen_eq] at h
  split at h
  · cases h
  next hv =>
    split at h
    next ha =>
      obtain rfl := Host.Outcome.next.inj h
      exact .of_adpu (.writeAinLen ha v (Nat.lt_of_not_le hv))
    · cases h

theorem hostMove_writeAin_moves {s t : State} {a : Nat} {v : Byte} (h : hostMove (.writeAin a v) s = .next t) :
    s.Moves t := by
  cases ha : s.adpu.accepts
  · cases (if_neg (Bool.eq_false_iff.mp ha)).symm.trans h
  · obtain rfl := Host.Outcome.next.inj ((if_pos ha).symm.trans h)
    exact .of_adpu (.writeAin ha a v)

theorem hostMove_moves {m : HostMove} {s t : State} (h : hostMove m s = .next t) : s.Moves t := by
  cases m with
  | writeFrameW v => exact writeRleuParameter_moves h (.parameters ..)
  | writeFrameH v => exact writeRleuParameter_moves h (.parameters ..)
  | writeCanvasW v => exact writeRleuParameter_moves h (.parameters ..)
  | writeCanvasH v => exact writeRleuParameter_moves h (.parameters ..)
  | writeFrameX v => exact writeRleuParameter_moves h (.parameters ..)
  | writeFrameY v => exact writeRleuParameter_moves h (.parameters ..)
  | writeRctrl v => exact writeRleuParameter_moves h (.parameters ..)
  | writeInLen v => exact writeRleuLength_moves h (.inLen v _)
  | writeKeyLen v => exact writeRleuLength_moves h (.keyLen v _)
  | writeIn a v => exact writeRleuMemory_moves h (.inByte a v)
  | writeKey a v => exact writeRleuMemory_moves h (.keyByte a v)
  | rleStart =>
    obtain ⟨-, rfl⟩ := rleStart_next h
    exact .of_rleu (Rleu.jobStart_moves _ _)
  | writeAinLen v => exact hostMove_writeAinLen_moves h
  | writeAin a v => exact hostMove_writeAin_moves h
  | adpStart =>
    obtain ⟨-, rfl⟩ := adpStart_next h
    exact .of_adpu .start
  | reset =>
    obtain rfl := Host.Outcome.next.inj h
    exact ⟨rfl, .reset, .reset⟩

/-- The event a step takes says which unit it moves; taking it off the list moves none (R9; log entry 3). -/
theorem step_moves {s t : State} (h : step s = .next t) : s.Moves t := by
  cases hp : s.pending with
  | nil =>
    rw [step_pending_nil hp] at h
    split at h
    · exact adpuTurn_moves h
    · exact rleuTurn_moves h
  | cons event events =>
    have moved : (s.setPending events).Moves t := by
      cases event with
      | rleu => exact rleuTurn_moves ((step_pending_rleu hp).symm.trans h)
      | adpu => exact adpuTurn_moves ((step_pending_adpu hp).symm.trans h)
      | host m => exact hostMove_moves ((step_pending_host hp).symm.trans h)
    exact ⟨moved.params, moved.rleu, moved.adpu⟩

end Sys2Proof.Machine
end

section
/-! The invariants over the registers of both units (spec/10_state.md R42, R52): each move of a unit keeps them. -/

namespace Sys2Proof.Machine

/-! ### Where the cells of a memory can stand -/

section Cells

variable {P : Nat → Prop} {m key pix : Memory}

/-- A write adds no cell but its own. -/
theorem Memory.forall_write (h : ∀ c ∈ m, P c.1) {a : Nat} (ha : P a) (v : Byte) :
    ∀ c ∈ Memory.write m a v, P c.1 := by
  intro c hc
  rcases Memory.mem_write hc with rfl | hc
  · exact ha
  · exact h c hc

theorem Memory.forall_writeBytes (bytes : List Byte) (h : ∀ c ∈ m, P c.1) {a : Nat}
    (ha : ∀ j < bytes.length, P (a + j)) : ∀ c ∈ Memory.writeBytes m a bytes, P c.1 := by
  induction bytes generalizing m a with
  | nil => exact h
  | cons v rest ih =>
    refine ih (Memory.forall_write h (ha 0 (Nat.zero_lt_succ _)) v) fun j hj => ?_
    rw [Nat.add_right_comm]
    exact ha (j + 1) (Nat.succ_lt_succ hj)

theorem Memory.forall_write16 (h : ∀ c ∈ m, P c.1) {i : Nat} (hlow : P (2 * i)) (hhigh : P (2 * i + 1))
    (v : BitVec 16) : ∀ c ∈ Memory.write16 m i v, P c.1 :=
  Memory.forall_write (Memory.forall_write h hlow _) hhigh _

theorem forall_copySpan (n : Nat) (h : ∀ c ∈ pix, P c.1) {a : Nat} (ha : ∀ j < n, P (a + j)) :
    ∀ c ∈ copySpan key pix a n, P c.1 := by
  induction n generalizing pix a with
  | zero => exact h
  | succ k ih =>
    refine ih (Memory.forall_write h (ha 0 (Nat.zero_lt_succ _)) _) fun j hj => ?_
    rw [Nat.add_right_comm]
    exact ha (j + 1) (Nat.succ_lt_succ hj)

theorem forall_composeRuns (cw : Nat) (records : List TrlRecord) (h : ∀ c ∈ pix, P c.1)
    (hr : ∀ t ∈ records, ∀ j < t.len, P (pixIndex cw t.row t.col + j)) :
    ∀ c ∈ composeRuns key pix cw records, P c.1 := by
  induction records generalizing pix with
  | nil => exact h
  | cons t rest ih =>
    exact ih (forall_copySpan t.len h (hr t List.mem_cons_self)) fun u hu => hr u (List.mem_cons_of_mem _ hu)

theorem forall_composeBackground (n : Nat) (h : ∀ c ∈ pix, P c.1) {a : Nat} (ha : ∀ j < n, P (a + j)) :
    ∀ c ∈ composeBackground key pix a n, P c.1 := by
  induction n generalizing pix a with
  | zero => exact h
  | succ k ih =>
    have hnext : ∀ j < k, P (a + 1 + j) := fun j hj => by
      rw [Nat.add_right_comm]
      exact ha (j + 1) (Nat.succ_lt_succ hj)
    rw [composeBackground]
    split
    · exact ih (Memory.forall_write h (ha 0 (Nat.zero_lt_succ _)) _) hnext
    · exact ih h hnext

end Cells

/-- The pixels of a run of `n` in one row of the canvas lie inside PIX (R63). -/
theorem pixIndex_add_lt {cw ch row col n j : Nat} (hr : row < ch) (hc : col + n ≤ cw) (hj : j < n) :
    pixIndex cw row col + j < cw * ch := by
  have := pixIndex_lt hr (show col + j < cw by omega)
  unfold pixIndex at this ⊢
  omega

/-- The composite step writes inside the canvas only (R182 to R184). -/
theorem Rleu.forall_composedPix {P : Nat → Prop} {r : Rleu} (h : ∀ c ∈ r.pix, P c.1) (hrec : r.RecordsInCanvas)
    (hP : ∀ a < r.cw * r.ch, P a) : ∀ c ∈ r.composedPix, P c.1 := by
  unfold Rleu.composedPix
  split
  · split
    · refine forall_composeRuns _ _ h fun t ht j hj => ?_
      obtain ⟨hrow, -, -, hend⟩ := hrec t ht
      exact hP _ (pixIndex_add_lt hrow hend hj)
    · exact forall_composeBackground _ h fun j hj => hP _ (by omega)
  · exact h

/-! ### The invariant of RLEU -/

section RleuInv

variable {p : Params} {i : Instr} {r t : Rleu}

/-- The capacity check of the job start makes room for every pixel of the canvas (R123). -/
theorem Rleu.JobInv.pixel_fits (h : r.JobInv p) {a : Nat} (ha : a < r.cw * r.ch) :
    withinCap p.pixCap (a + 1) = true :=
  withinCap_mono h.capacity ha

/-- An empty memory fits every capacity. -/
theorem withinCap_zero (cap : Option Nat) : withinCap cap 0 = true := by
  cases cap with
  | none => rfl
  | some c => exact decide_eq_true (Nat.zero_le c)

/-- The job-start checks look at the parameter registers and the effective canvas only. -/
theorem Rleu.JobInv.congr (h : r.JobInv p) (hi : t.SameInputs r) (hw : t.cwEff = r.cwEff) (hh : t.chEff = r.chEff) :
    t.JobInv p := by
  have hW : t.jobCanvasW = r.jobCanvasW := by simp only [Rleu.jobCanvasW, hi.rctrl, hi.canvasW, hi.frameW]
  have hH : t.jobCanvasH = r.jobCanvasH := by simp only [Rleu.jobCanvasH, hi.rctrl, hi.canvasH, hi.frameH]
  have hg := h.geometry
  have hk := h.keySize
  have hc := h.capacity
  refine ⟨by rw [hw, hW, h.width], by rw [hh, hH, h.height], ?_, ?_, ?_⟩
  · simpa only [Rleu.geometryOverflows, hi.frameX, hi.frameY, hi.frameW, hi.frameH, hW, hH] using hg
  · rw [Rleu.keySizeMismatches, Rleu.jobPixels, hi.rctrl, hi.keyLen, hW, hH]
    exact hk
  · simpa only [Rleu.cw, Rleu.ch, hw, hh] using hc

theorem Rleu.Inv.errCode_of_run (h : r.Inv p) (hrun : r.rstate = .run) : r.errCode = .none :=
  h.errIff.mpr (by rw [hrun]; decide)

theorem TokenDone.cursorInv (h : TokenDone p i r t) (hl : r.pos + i.lengthBytes ≤ r.inLen) (hc : r.CursorInv) :
    t.CursorInv := by
  obtain ⟨heven, -, hrow, hArow, hAcol⟩ := hc
  have hlength := (lengthBytes_of_isToken h.isToken).2
  have hpos := h.pos_eq
  obtain ⟨hin, -⟩ := h.keepsHostFields
  have hmono := h.row_le
  refine ⟨by omega, by rw [hin.inLen]; omega, by rw [hin.frameY]; omega, fun ha => ?_, fun ha => ?_⟩
  · rcases h.armed_cases ha with ⟨h1, h2⟩ | ⟨har, h1, h2, h3, h4⟩
    · omega
    · have := hArow har
      omega
  · rcases h.armed_cases ha with ⟨h1, h2⟩ | ⟨har, h1, h2, h3, h4⟩
    · omega
    · have := hAcol har
      omega

/-- The record of an armed literal run lies in the cursor's row, from the remembered column to the run's end (R152,
R184). -/
theorem TokenDone.recordsInCanvas (h : TokenDone p i r t) (hw : i.wellFormed = true) (hc : r.CursorInv)
    (hrec : r.RecordsInCanvas) : t.RecordsInCanvas := by
  unfold Rleu.RecordsInCanvas
  rw [h.cw_eq, h.ch_eq]
  intro u hu
  rcases h.trl_cases hw with htrl | ⟨n, hn⟩
  · exact hrec u (htrl ▸ hu)
  · rw [hn.trl] at hu
    rcases List.mem_append.mp hu with hu | hu
    · exact hrec u hu
    · obtain rfl := List.mem_singleton.mp hu
      have hrow := hc.armedRow hn.armed
      have hcol := hc.armedCol hn.armed
      have hpos := hn.run
      obtain ⟨hin, hend⟩ := hn.inside
      dsimp only
      omega

theorem TokenDone.inv (h : TokenDone p i r t) (hrun : r.rstate = .run) (hw : i.wellFormed = true)
    (hl : r.pos + i.lengthBytes ≤ r.inLen) (hr : r.Inv p) : t.Inv p := by
  obtain ⟨hin, -⟩ := h.keepsHostFields
  obtain ⟨hcw, hch, herr⟩ := h.canvas_errCode
  obtain ⟨bytes, hpix, hinside⟩ := h.pix
  have hjob := hr.job (.inl hrun)
  have hstate : t.rstate = .run ∨ (t.rstate = .compose ∧ t.tArmed = false) := hrun ▸ h.rstate_cases
  refine
    { inWf := hin.inMem ▸ hr.inWf
      keyWf := hin.keyMem ▸ hr.keyWf
      pixWf := hpix ▸ Memory.wf_writeBytes bytes hr.pixWf _
      inLenFits := hin.inLen ▸ hr.inLenFits
      keyLenFits := hin.keyLen ▸ hr.keyLenFits
      trlFits := ?trlFits
      pixFits := ?pixFits
      errIff := ?errIff
      job := fun _ => hjob.congr hin hcw hch
      cursor := fun _ => h.cursorInv hl (hr.cursor hrun)
      records := fun _ => h.recordsInCanvas hw (hr.cursor hrun) (hr.records (.inl hrun))
      disarmed := ?disarmed
      idleEmpty := ?idleEmpty }
  case trlFits =>
    rcases h.trl_cases hw with htrl | ⟨n, hn⟩
    · unfold Rleu.trlCount
      rw [htrl]
      exact hr.trlFits
    · have hcount : t.trlCount = r.trlCount + 1 := by simp [Rleu.trlCount, hn.trl]
      rw [hcount]
      exact hn.room
  case pixFits =>
    rw [hpix]
    refine Memory.forall_writeBytes (P := fun a => withinCap p.pixCap (a + 1) = true) bytes hr.pixFits fun j hj => ?_
    obtain ⟨hrow, hend, -⟩ := hinside (List.ne_nil_of_length_pos (Nat.zero_lt_of_lt hj))
    exact hjob.pixel_fits (pixIndex_add_lt hrow hend hj)
  case errIff =>
    rw [herr, hr.errCode_of_run hrun]
    rcases hstate with hs | ⟨hs, -⟩ <;> simp [hs]
  case disarmed =>
    rcases hstate with hs | ⟨-, ha⟩
    · simp [hs]
    · exact fun _ => ha
  case idleEmpty => rcases hstate with hs | ⟨hs, -⟩ <;> simp [hs]

theorem Rleu.Inv.endPass (h : r.Inv p) (hrun : r.rstate = .run) : r.endPass.Inv p :=
  { h with
    errIff := ⟨fun _ => nofun, fun _ => h.errCode_of_run hrun⟩
    job := fun _ =>
      have hjob := h.job (.inl hrun)
      { hjob with }
    cursor := nofun
    records := fun _ => h.records (.inl hrun)
    disarmed := fun _ => rfl
    idleEmpty := nofun }

theorem Rleu.Inv.composite (h : r.Inv p) (hcompose : r.rstate = .compose) : r.composite.Inv p :=
  have hrec := h.records (.inr (.inl hcompose))
  { h with
    pixWf := Rleu.wf_composedPix h.pixWf
    pixFits := Rleu.forall_composedPix (P := fun a => withinCap p.pixCap (a + 1) = true) h.pixFits hrec
      fun _ ha => (h.job (.inr hcompose)).pixel_fits ha
    errIff := ⟨fun _ => nofun, fun _ => h.errIff.mpr (by rw [hcompose]; decide)⟩
    job := nofun
    cursor := nofun
    records := fun _ => hrec
    disarmed := fun _ => h.disarmed (.inr (.inl hcompose))
    idleEmpty := nofun }

/-- After an error the outputs are free values within the capacities (R237; log entry 8). -/
theorem Rleu.Inv.raise (h : r.Inv p) {e : ErrCode} (he : e ≠ .none) (pos row col : Nat) :
    (Rleu.raise p r e pos row col).Inv p :=
  { h with
    pixWf := wf_anyPix p r.draws
    trlFits := withinCap_anyTrl p r.draws
    pixFits := fun _ => withinCap_anyPix
    errIff := ⟨fun hn => absurd hn he, fun hn => absurd rfl hn⟩
    job := nofun
    cursor := nofun
    records := nofun
    disarmed := nofun
    idleEmpty := nofun }

/-- A job that begins meets the invariant, whatever the job before it left (R124 to R128). -/
theorem Rleu.Inv.jobBegin (h : r.Inv p) (hg : r.geometryOverflows = false) (hk : r.keySizeMismatches = false)
    (hc : withinCap p.pixCap r.jobPixels = true) : r.jobBegin.Inv p := by
  rw [Rleu.jobBegin_eq]
  have hstate : (if r.inLen ≤ 2 then RState.done else if r.frameH = 0 then .compose else .run) ≠ .err := by
    split
    · decide
    · split <;> decide
  exact
    { h with
      pixWf := Memory.wf_zeroBelow h.pixWf _
      trlFits := withinCap_zero _
      pixFits := fun c hm => h.pixFits c (List.mem_filter.mp hm).1
      errIff := ⟨fun _ => hstate, fun _ => rfl⟩
      job := fun _ => ⟨rfl, rfl, hg, hk, hc⟩
      cursor := fun _ =>
        { posEven := by dsimp only; split <;> rfl
          posBound := by dsimp only [Rleu.jobInit]; split <;> omega
          rowBound := Nat.le_refl _
          armedRow := nofun
          armedCol := nofun }
      records := fun _ => nofun
      disarmed := fun _ => rfl
      idleEmpty := fun _ => rfl }

/-- A write of HOST comes at rest, where the invariant asks nothing of a job under way (R30, R268). -/
theorem Rleu.Inv.hostWrite (h : r.Inv p) (hrest : r.accepts = true) (hw : r.HostWrite p t) : t.Inv p := by
  obtain ⟨hrun, hcompose⟩ := r.accepts_iff.mp hrest
  have nojob : r.rstate = .run ∨ r.rstate = .compose → False := fun hs => hs.elim hrun hcompose
  cases hw with
  | parameters => exact { h with job := fun hs => (nojob hs).elim, cursor := fun hs => absurd hs hrun }
  | inLen v written fits =>
    exact { h with inLenFits := fits, job := fun hs => (nojob hs).elim, cursor := fun hs => absurd hs hrun }
  | keyLen v written fits =>
    exact { h with keyLenFits := fits, job := fun hs => (nojob hs).elim, cursor := fun hs => absurd hs hrun }
  | inByte a v =>
    exact { h with
      inWf := Memory.wf_write h.inWf a v, job := fun hs => (nojob hs).elim, cursor := fun hs => absurd hs hrun }
  | keyByte a v =>
    exact { h with
      keyWf := Memory.wf_write h.keyWf a v, job := fun hs => (nojob hs).elim, cursor := fun hs => absurd hs hrun }

/-- RLEU right after reset: no memory lists a cell, and no job runs (R260; log entries 1 and 2). -/
theorem Rleu.reset_inv (p : Params) : Rleu.reset.Inv p where
  inWf := Memory.wf_nil
  keyWf := Memory.wf_nil
  pixWf := Memory.wf_nil
  inLenFits := Nat.two_pow_pos _
  keyLenFits := Nat.two_pow_pos _
  trlFits := withinCap_zero _
  pixFits := nofun
  errIff := ⟨fun _ => nofun, fun _ => rfl⟩
  job := nofun
  cursor := nofun
  records := nofun
  disarmed := fun _ => rfl
  idleEmpty := fun _ => rfl

/-- A RESET event leaves free, canonical memories besides (R261; log entry 9). -/
theorem Rleu.afterReset_inv (p : Params) (r : Rleu) : (Rleu.afterReset p r).Inv p :=
  { Rleu.reset_inv p with
    inWf := Memory.wf_ofCells _
    keyWf := Memory.wf_ofCells _
    pixWf := wf_anyPix p r.draws
    pixFits := fun _ => withinCap_anyPix
    job := nofun
    cursor := nofun }

theorem Rleu.Moves.inv (hm : r.Moves p t) (h : r.Inv p) : t.Inv p := by
  cases hm with
  | stay => exact h
  | token run wf present done => exact done.inv run wf present h
  | endPass run => exact h.endPass run
  | composite compose => exact h.composite compose
  | raise error pos row col => exact h.raise error pos row col
  | begin geometry keySize capacity => exact h.jobBegin geometry keySize capacity
  | write rest w => exact h.hostWrite rest w
  | reset => exact Rleu.afterReset_inv p r

end RleuInv

/-! ### The invariant of ADPU -/

section AdpuInv

variable {p : Params} {d t : Adpu}

/-- SAMPLE keeps OUT_COUNT at twice the codes' position, below the room that the job start checked (R50, R52, R212). -/
theorem Adpu.Inv.afterSample (h : d.Inv p) (hrun : d.astate = .run) (hleft : d.apos < d.ainLen) (c : Code) :
    (d.afterSample c).Inv p := by
  have hcount := h.count (.inl hrun)
  have hnib : d.nib.toNat ≤ 1 := Bool.toNat_le d.nib
  have hlen := h.ainLenFits
  have hbounds := nextPredictor_bounds d.predictor c (stepSize d.stepIndex)
  refine
    { h with
      pcmWf := Memory.wf_write16 h.pcmWf _ _
      outCountFits := ?outCountFits
      pcmFits := ?pcmFits
      predictorLow := hbounds.1
      predictorHigh := hbounds.2
      count := fun _ => ?count
      aposBound := fun _ => ?aposBound
      lowNibble := fun _ hlow => ?lowNibble
      doneWhole := fun hdone => nomatch hrun.symm.trans hdone }
  case outCountFits =>
    show d.outCount + 1 < 2 ^ (p.lenBits + 2)
    rw [Nat.pow_add]
    omega
  case pcmFits =>
    have hfits : withinCap p.pcmCap (d.outCount + 1) = true := withinCap_mono (h.capacity hrun) (by omega)
    refine Memory.forall_write16 (P := fun a => withinCap p.pcmCap (a / 2 + 1) = true) h.pcmFits ?_ ?_ _
    · rwa [show 2 * d.outCount / 2 = d.outCount by omega]
    · rwa [show (2 * d.outCount + 1) / 2 = d.outCount by omega]
  case count =>
    show d.outCount + 1 = 2 * (if d.nib then d.apos + 1 else d.apos) + (!d.nib).toNat
    rw [hcount]
    cases d.nib with
    | false => rfl
    | true => rfl
  case aposBound =>
    show (if d.nib then d.apos + 1 else d.apos) ≤ d.ainLen
    split <;> omega
  case lowNibble =>
    have hhigh : d.nib = false := by simpa [Adpu.afterSample, Adpu.advance] using hlow
    show (if d.nib then d.apos + 1 else d.apos) < d.ainLen
    rw [hhigh]
    exact hleft

theorem Adpu.Inv.finish (h : d.Inv p) (hrun : d.astate = .run) (hconsumed : d.ainLen ≤ d.apos) : d.finish.Inv p :=
  { h with
    errIff := h.errIff.trans (by rw [hrun]; rfl)
    capacity := nofun
    count := fun _ => h.count (.inl hrun)
    aposBound := nofun
    lowNibble := nofun
    doneWhole := fun _ => Bool.eq_false_iff.mpr fun hlow => absurd (h.lowNibble hrun hlow) (Nat.not_lt.mpr hconsumed) }

/-- After an error PCM and OUT_COUNT are free values within their bounds (R53, R237; log entry 8). -/
theorem Adpu.Inv.raise (h : d.Inv p) : (Adpu.raise p d .allocationFailure).Inv p :=
  { h with
    pcmWf := wf_anyPcm p d.draws
    outCountFits := Nat.mod_lt _ (Nat.two_pow_pos _)
    pcmFits := fun _ => withinCap_anyPcm
    errIff := rfl
    capacity := nofun
    count := nofun
    aposBound := nofun
    lowNibble := nofun
    doneWhole := nofun }

/-- The job-start step of ADPU raises, or starts at the first code with room for every sample (R200, R201). -/
theorem Adpu.Inv.jobStart (h : d.Inv p) : (Adpu.jobStart p d).Inv p := by
  unfold Adpu.jobStart
  cases hc : withinCap p.pcmCap (2 * d.ainLen)
  · exact h.raise
  · exact
      { h with
        outCountFits := Nat.two_pow_pos _
        predictorLow := show (-32768 : Int) ≤ 0 by decide
        predictorHigh := show (0 : Int) ≤ 32767 by decide
        errIff := rfl
        capacity := fun _ => hc
        count := fun _ => rfl
        aposBound := fun _ => Nat.zero_le _
        lowNibble := nofun
        doneWhole := nofun }

theorem Adpu.Inv.writeAinLen (h : d.Inv p) (hrest : d.accepts = true) {v : Nat} (hv : v < 2 ^ p.lenBits) :
    Adpu.Inv p { d with ainLen := v, ainLenWritten := true } :=
  have hrun := d.accepts_iff.mp hrest
  { h with
    ainLenFits := hv
    capacity := fun hs => absurd hs hrun
    aposBound := fun hs => absurd hs hrun
    lowNibble := fun hs => absurd hs hrun }

/-- ADPU right after reset (R260; log entries 1 and 2). -/
theorem Adpu.reset_inv (p : Params) : Adpu.reset.Inv p where
  ainWf := Memory.wf_nil
  pcmWf := Memory.wf_nil
  ainLenFits := Nat.two_pow_pos _
  outCountFits := Nat.two_pow_pos _
  pcmFits := nofun
  predictorLow := by decide
  predictorHigh := by decide
  errIff := rfl
  capacity := nofun
  count := fun _ => rfl
  aposBound := nofun
  lowNibble := nofun
  doneWhole := nofun

/-- A RESET event leaves free, canonical memories besides (R261; log entry 9). -/
theorem Adpu.afterReset_inv (p : Params) (d : Adpu) : (Adpu.afterReset p d).Inv p :=
  { Adpu.reset_inv p with
    ainWf := Memory.wf_ofCells _
    pcmWf := wf_anyPcm p d.draws
    pcmFits := fun _ => withinCap_anyPcm }

theorem Adpu.Moves.inv (hm : d.Moves p t) (h : d.Inv p) : t.Inv p := by
  cases hm with
  | stay => exact h
  | sample c run left => exact h.afterSample run left c
  | finish run consumed => exact h.finish run consumed
  | start => exact h.jobStart
  | writeAinLen rest v fits => exact h.writeAinLen rest fits
  | writeAin rest a v => exact { h with ainWf := Memory.wf_write h.ainWf a v }
  | reset => exact Adpu.afterReset_inv p d

end AdpuInv

/-- Settles O43: a step is a move of each unit (`step_moves`), and every move keeps that unit's invariant. -/
theorem stepKeepsTheInvariant : Obligations.StepKeepsTheInvariant := by
  intro s t h hstep
  obtain ⟨hparams, hrleu, hadpu⟩ := step_moves hstep
  exact ⟨hparams ▸ h.lenBits, hparams ▸ hrleu.inv h.rleu, hparams ▸ hadpu.inv h.adpu⟩

/-- Settles O42: both units meet their invariants after reset, and RLEU, in IDLE, is in no token pass. -/
theorem invariantHoldsAtReset : Obligations.InvariantHoldsAtReset :=
  ⟨⟨by decide, Rleu.reset_inv _, Adpu.reset_inv _⟩, ⟨nofun, nofun, nofun⟩⟩

end Sys2Proof.Machine
end

section
/-! What the token pass keeps besides (spec/10_state.md R42 (d)): the records apart and behind the cursor, the pixels
ahead of it zero. -/

namespace Sys2Proof.Machine

/-- A record that ends before the cursor ends before it after the cursor has moved on in reading order. -/
theorem TrlRecord.EndsBefore.mono {u : TrlRecord} {row col row' col' : Nat} (h : TrlRecord.EndsBefore u row col)
    (hf : row < row' ∨ (row = row' ∧ col ≤ col')) : TrlRecord.EndsBefore u row' col' := by
  unfold TrlRecord.EndsBefore at h ⊢
  omega

/-- The pixels of a run of `n` in one row stand before every pixel of the canvas at or after its end in reading order
(R63). -/
theorem pixIndex_run_le {cw row col n row' col' : Nat} (hend : col + n ≤ cw)
    (hf : row < row' ∨ (row = row' ∧ col + n ≤ col')) : pixIndex cw row col + n ≤ pixIndex cw row' col' := by
  unfold pixIndex
  rcases hf with hrow | ⟨rfl, hcol⟩
  · have : (row + 1) * cw ≤ row' * cw := Nat.mul_le_mul_right cw hrow
    rw [Nat.succ_mul] at this
    omega
  · omega

section Token

variable {p : Params} {i : Instr} {r t : Rleu}

/-- The record of an armed literal run begins at the remembered position, after every other record's end (R42 (e)). -/
theorem TokenDone.recordsApart (h : TokenDone p i r t) (hw : i.wellFormed = true) (hb : r.RecordsBehindCursor) :
    t.RecordsApart := by
  obtain ⟨hapart, hbehind⟩ := hb
  unfold Rleu.RecordsApart
  rcases h.trl_cases hw with htrl | ⟨n, hn⟩
  · rw [htrl]
    exact hapart
  · rw [hn.trl]
    refine List.pairwise_append.mpr ⟨hapart, List.pairwise_singleton _ _, fun u hu v hv => ?_⟩
    obtain rfl := List.mem_singleton.mp hv
    exact (hbehind u hu).2 hn.armed

/-- Records of before stay behind a cursor that moves on; the new one ends at the new cursor (R152). -/
theorem TokenDone.recordsBehindCursor (h : TokenDone p i r t) (hw : i.wellFormed = true) (hc : r.CursorInv)
    (hb : r.RecordsBehindCursor) : t.RecordsBehindCursor := by
  refine ⟨h.recordsApart hw hb, fun u hu => ?_⟩
  have old : u ∈ r.trl → TrlRecord.EndsBefore u t.row t.col ∧
      (t.tArmed = true → TrlRecord.EndsBefore u t.tRow t.tCol) := fun hu => by
    obtain ⟨hcursor, hremembered⟩ := hb.2 u hu
    have hmoved := hcursor.mono h.cursor_forward
    refine ⟨hmoved, fun ha => ?_⟩
    rcases h.armed_cases ha with ⟨hrow, hcol⟩ | ⟨har, hrow, hcol, -⟩ <;> rw [hrow, hcol]
    · exact hmoved
    · exact hremembered har
  rcases h.trl_cases hw with htrl | ⟨n, hn⟩
  · exact old (htrl ▸ hu)
  · rw [hn.trl] at hu
    rcases List.mem_append.mp hu with hu | hu
    · exact old hu
    · obtain rfl := List.mem_singleton.mp hu
      have hrow := hc.armedRow hn.armed
      have hcol := hc.armedCol hn.armed
      refine ⟨?_, fun ha => nomatch hn.disarmed.symm.trans ha⟩
      rw [hn.row, hn.col]
      unfold TrlRecord.EndsBefore
      dsimp only
      omega

/-- A token writes pixels between the old cursor and the new one only, so those ahead stay zero (R42 (d), R63). -/
theorem TokenDone.aheadIsZero (h : TokenDone p i r t) (hz : r.AheadIsZero) : t.AheadIsZero := by
  intro row col hrow hcol hahead
  rw [h.cw_eq] at hcol ⊢
  rw [h.ch_eq] at hrow
  have hforward := h.cursor_forward
  have hold := hz row col hrow hcol (by omega)
  obtain ⟨bytes, hpix, hinside⟩ := h.pix
  rw [hpix]
  by_cases hb : bytes = []
  · rw [hb]
    exact hold
  · obtain ⟨-, hend, htrow, htcol⟩ := hinside hb
    rw [read_writeBytes_outside (.inr (pixIndex_run_le hend (by omega)))]
    exact hold

theorem TokenDone.passInv (h : TokenDone p i r t) (hrun : r.rstate = .run) (hw : i.wellFormed = true)
    (hc : r.CursorInv) (hp : r.PassInv) : t.PassInv where
  behind _ := h.recordsBehindCursor hw hc (hp.behind hrun)
  ahead _ := h.aheadIsZero (hp.ahead hrun)
  apart _ := h.recordsApart hw (hp.behind hrun)

/-- A job that begins has no record, and every pixel of its canvas is zero (R124). -/
theorem Rleu.jobBegin_passInv (r : Rleu) : r.jobBegin.PassInv := by
  rw [Rleu.jobBegin_eq]
  refine ⟨fun _ => ⟨List.Pairwise.nil, nofun⟩, fun _ row col hrow hcol _ => ?_, fun _ => List.Pairwise.nil⟩
  exact (Memory.read_zeroBelow ..).trans (if_pos (pixIndex_lt hrow hcol))

/-- HOST writes no register of the token pass and no output. -/
theorem Rleu.PassInv.hostWrite (hp : r.PassInv) (hw : r.HostWrite p t) : t.PassInv := by
  cases hw with
  | parameters => exact ⟨hp.behind, hp.ahead, hp.apart⟩
  | inLen => exact ⟨hp.behind, hp.ahead, hp.apart⟩
  | keyLen => exact ⟨hp.behind, hp.ahead, hp.apart⟩
  | inByte => exact ⟨hp.behind, hp.ahead, hp.apart⟩
  | keyByte => exact ⟨hp.behind, hp.ahead, hp.apart⟩

theorem Rleu.Moves.passInv (hm : r.Moves p t) (h : r.Inv p) (hp : r.PassInv) : t.PassInv := by
  cases hm with
  | stay => exact hp
  | token run wf present done => exact done.passInv run wf (h.cursor run) hp
  | endPass run => exact ⟨nofun, nofun, fun _ => (hp.behind run).1⟩
  | composite compose => exact ⟨nofun, nofun, fun _ => hp.apart (.inl compose)⟩
  | raise error pos row col => exact ⟨nofun, nofun, nofun⟩
  | begin geometry keySize capacity => exact r.jobBegin_passInv
  | write rest w => exact hp.hostWrite w
  | reset => exact ⟨nofun, nofun, nofun⟩

end Token

/-- Settles O44: every move of RLEU (`step_moves`) keeps what the token pass keeps. -/
theorem recordsNeverOverlap : Obligations.RecordsNeverOverlap :=
  fun _ _ h hp hstep => (step_moves hstep).rleu.passInv h.rleu hp

end Sys2Proof.Machine
end

section
/-! The memories (spec/20_memory.md) as HOST and the units see them: what HOST reads of them, the order of a sample's
bytes, and where a literal run may be written. -/

namespace Sys2Proof.Machine

/-! ### The reads of HOST -/

/-- In DONE every pixel of the canvas is read (R63). -/
theorem readPix_done {s : State} (h : s.rleu.rstate = .done) {a : Nat} (ha : a < s.rleu.cw * s.rleu.ch) :
    readPix a s = .next (Memory.read s.rleu.pix a) :=
  (if_neg (not_not_intro h)).trans (if_pos ha)

/-- In DONE every record of TRL is read (R64). -/
theorem readTrl_done {s : State} (h : s.rleu.rstate = .done) {j : Nat} (hj : j < s.rleu.trl.length) :
    readTrl j s = .next s.rleu.trl[j] := by
  unfold readTrl
  rw [if_neg (not_not_intro h), List.getElem?_eq_getElem hj]

/-- In DONE every sample below OUT_COUNT is read (R68). -/
theorem readPcm_done {s : State} (h : s.adpu.astate = .done) {i : Nat} (hi : i < s.adpu.outCount) :
    readPcm i s = .next (Memory.read16 s.adpu.pcm i) :=
  (if_neg (not_not_intro h)).trans (if_pos hi)

/-- Settles O41: outside DONE each read is refused by its first test, and `pixIndex_lt` puts a pixel of the canvas
inside PIX. -/
theorem outputsAreReadInDoneOnly : Obligations.OutputsAreReadInDoneOnly := fun _ =>
  ⟨fun h _ => ⟨if_pos h, if_pos h⟩, fun h _ => if_pos h,
    fun h => ⟨fun _ _ hrow hcol => readPix_done h (pixIndex_lt hrow hcol), fun _ => readTrl_done h⟩,
    fun h _ => readPcm_done h⟩

/-- Settles O58: a unit accepts reads and writes of its input memories exactly at rest, a write leaves it at rest, and
the byte written is read back (`Memory.read_write_same`). -/
theorem inputsAreReadWhileTheUnitRests : Obligations.InputsAreReadWhileTheUnitRests := by
  intro s a
  refine ⟨fun hrun hcompose => ?resting, fun h => ?running, fun h => ?notPlaying, fun h => ?playing⟩
  case resting =>
    have ha := Rleu.accepts_of_resting hrun hcompose
    exact ⟨if_pos ha, if_pos ha,
      fun v => ⟨_, writeRleuMemory_resting ha _, (if_pos ha).trans (congrArg _ (Memory.read_write_same _ a v))⟩,
      fun v => ⟨_, writeRleuMemory_resting ha _, (if_pos ha).trans (congrArg _ (Memory.read_write_same _ a v))⟩⟩
  case running =>
    have busy := Bool.eq_false_iff.mp (Rleu.accepts_of_running h)
    exact ⟨if_neg busy, if_neg busy⟩
  case notPlaying =>
    have ha := s.adpu.accepts_iff.mpr h
    exact ⟨if_pos ha, fun v => ⟨_, if_pos ha, (if_pos ha).trans (congrArg _ (Memory.read_write_same _ a v))⟩⟩
  case playing => exact if_neg (Bool.eq_false_iff.mp (Adpu.accepts_of_running h))

/-! ### The bytes of a sample -/

/-- A 16-bit integer is the value of its 16-bit two's-complement form (R68). -/
theorem toInt_ofInt_of_bounds {v : Int} (hlow : -32768 ≤ v) (hhigh : v ≤ 32767) : (BitVec.ofInt 16 v).toInt = v :=
  BitVec.toInt_ofInt_eq_self (by decide) hlow (by omega)

/-- The low and the high byte of the two's-complement form of an integer (R68). -/
theorem extractLsb'_ofInt (v : Int) :
    (((BitVec.ofInt 16 v).extractLsb' 0 8).toNat : Int) = v % 256 ∧
      (((BitVec.ofInt 16 v).extractLsb' 8 8).toNat : Int) = v / 256 % 256 := by
  have hv : ((BitVec.ofInt 16 v).toNat : Int) = v % 65536 := by
    rw [BitVec.toNat_ofInt]
    omega
  constructor
  · rw [BitVec.extractLsb'_toNat, Nat.shiftRight_eq_div_pow]
    omega
  · rw [BitVec.extractLsb'_toNat, Nat.shiftRight_eq_div_pow]
    omega

/-- Storing a sample writes its low byte, then its high byte, and no other (R68). -/
theorem Memory.read_write16 (m : Memory) (i : Nat) (v : BitVec 16) (a : Nat) :
    Memory.read (Memory.write16 m i v) a =
      if a = 2 * i + 1 then v.extractLsb' 8 8 else if a = 2 * i then v.extractLsb' 0 8 else Memory.read m a := by
  rw [Memory.write16, Memory.read_write, Memory.read_write]

/-- Settles O25: SAMPLE stores the 16-bit form of the new PREDICTOR, which its saturation keeps within 16 bits. -/
theorem sampleIsLittleEndian : Obligations.SampleIsLittleEndian := by
  intro s t c h
  obtain rfl := Host.Outcome.next.inj h
  generalize hv : nextPredictor s.adpu.predictor c (stepSize s.adpu.stepIndex) = v
  obtain ⟨hlow, hhigh⟩ := hv ▸ nextPredictor_bounds s.adpu.predictor c (stepSize s.adpu.stepIndex)
  obtain ⟨hlowByte, hhighByte⟩ := extractLsb'_ofInt v
  simp only [State.setAdpu_adpu, writeSample]
  refine ⟨?_, ?_, ?_, fun a hlo hhi => ?_⟩
  · rw [read16_write16, if_pos rfl, toInt_ofInt_of_bounds hlow hhigh]
  · rw [Memory.read_write16, if_neg (by omega), if_pos rfl, hlowByte]
  · rw [Memory.read_write16, if_pos rfl, hhighByte]
  · rw [Memory.read_write16, if_neg hhi, if_neg hlo]

/-! ### Where a literal run may be written -/

theorem tokenError_raises (s : State) (e : ErrCode) : RaisesAtToken s (tokenError s e) e :=
  ⟨_, rfl, rfl⟩

/-- Settles O21: the two errors of LIT in the order of its tests (`execLit_eq`). -/
theorem litErrors : Obligations.LitErrors := by
  intro s n colour hn
  have hz : zext n ≠ 0 := fun h0 => hn (BitVec.eq_of_toNat_eq h0)
  have hlit : exec (.lit n colour) s = execLit n colour s := rfl
  rw [hlit, execLit_eq]
  refine ⟨fun hout => ?_, fun hrow hcol harmed ⟨c, hcap, hfull⟩ => ?_⟩
  · have hnot : ¬ (zext n = 0 ∨ (s.rleu.row < s.rleu.ch ∧ s.rleu.col + zext n ≤ s.rleu.cw)) := by
      have hzext : zext n = n.toNat := rfl
      omega
    rw [if_neg hnot]
    exact tokenError_raises s _
  · have hroom : ¬ withinCap s.params.trlCap (s.rleu.trlCount + 1) = true := by
      rw [hcap, withinCap_some, decide_eq_true_iff]
      omega
    rw [if_pos (.inr ⟨hrow, hcol⟩), if_neg (by rw [harmed]; decide), if_neg hroom]
    exact tokenError_raises s _

end Sys2Proof.Machine
end

section
/-! Which part of the machine a turn looks at (spec/20_memory.md R61, R80): RLEU's turn at unit RLEU and the parameters,
and of IN at the bytes below IN_LEN; ADPU's turn at unit ADPU. -/

namespace Sys2Proof.Machine

/-! ### A turn of RLEU on another stream, beside another ADPU -/

/-- RLEU with another memory IN and another draw counter. -/
def Rleu.withStream (r : Rleu) (m : Memory) (draws : Nat) : Rleu :=
  { r with inMem := m, draws := draws }

/-- MSDEC with RLEU on another memory IN, with another ADPU and other pending events. -/
def State.withStream (s : State) (m : Memory) (draws : Nat) (d : Adpu) (events : List Event) : State :=
  ⟨s.params, s.rleu.withStream m draws, d, events⟩

/-- The outcomes of `s` and of `s.withStream m draws d events` that go the same way: both replace unit RLEU by the same
but for IN and the draw counter, or both raise the same error of a token. -/
inductive SameAnswer (s : State) (m : Memory) (draws : Nat) (d : Adpu) (events : List Event) :
    Host.Outcome State Fault Refusal → Host.Outcome State Fault Refusal → Prop where
  | next (r : Rleu) (inMem : r.inMem = s.rleu.inMem) (draws_eq : r.draws = s.rleu.draws) :
      SameAnswer s m draws d events (.next (s.setRleu r))
        (.next ((s.withStream m draws d events).setRleu (r.withStream m draws)))
  | error (e : ErrCode) :
      SameAnswer s m draws d events (tokenError s e) (tokenError (s.withStream m draws d events) e)

section Answer

variable {s : State} {m : Memory} {draws : Nat} {d : Adpu} {events : List Event}

theorem SameAnswer.ite {c : Prop} [Decidable c] {o₁ o₂ o₁' o₂' : Host.Outcome State Fault Refusal}
    (h₁ : SameAnswer s m draws d events o₁ o₁') (h₂ : SameAnswer s m draws d events o₂ o₂') :
    SameAnswer s m draws d events (if c then o₁ else o₂) (if c then o₁' else o₂') := by
  split
  · exact h₁
  · exact h₂

/-- A token's meaning looks neither at IN nor at ADPU (R150 to R164). -/
theorem exec_token_sameAnswer {i : Instr} (hi : i.isToken = true) :
    SameAnswer s m draws d events (exec i s) (exec i (s.withStream m draws d events)) := by
  cases i with
  | hdr => cases hi
  | sample c => cases hi
  | eor =>
    show SameAnswer _ _ _ _ _ (execEor _) (execEor _)
    rw [execEor_eq, execEor_eq]
    exact .next _ rfl rfl
  | eoi => exact .next _ rfl rfl
  | trn => exact .next _ rfl rfl
  | repos dx dy => exact .ite (.error _) (.next _ rfl rfl)
  | raw payload =>
    show SameAnswer _ _ _ _ _ (execRaw payload _) (execRaw payload _)
    rw [execRaw_eq, execRaw_eq]
    exact .ite (.error _) (.ite (.next _ rfl rfl) (.error _))
  | lit n colour =>
    show SameAnswer _ _ _ _ _ (execLit n colour _) (execLit n colour _)
    rw [execLit_eq, execLit_eq]
    exact .ite (.ite (.next _ rfl rfl) (.ite (.next _ rfl rfl) (.error _))) (.error _)

theorem rleuTurn_run (h : s.rleu.rstate = .run) : rleuTurn s = tokenStep s := by
  unfold rleuTurn
  rw [h]

/-- RLEU's turn looks at no byte of IN at or beyond IN_LEN, and at nothing of ADPU or of the pending events (R3,
R61). -/
theorem rleuTurn_sameAnswer (h : ∀ a, a < s.rleu.inLen → Memory.read m a = Memory.read s.rleu.inMem a) :
    SameAnswer s m draws d events (rleuTurn s) (rleuTurn (s.withStream m draws d events)) := by
  by_cases hrun : s.rleu.rstate = .run
  · have hf : (s.withStream m draws d events).rleu.fetch = s.rleu.fetch :=
      Rleu.fetch_congr rfl rfl fun a _ ha => h a ha
    rw [rleuTurn_run hrun, rleuTurn_run (s := s.withStream m draws d events) hrun]
    unfold tokenStep
    rw [hf]
    cases hs : s.rleu.fetch with
    | token i rest =>
      obtain ⟨-, htoken, -⟩ := Rleu.fetch_token hs
      exact exec_token_sameAnswer htoken
    | exhausted => exact .next _ rfl rfl
    | truncated => exact .error _
  by_cases hcompose : s.rleu.rstate = .compose
  · rw [rleuTurn_compose hcompose, rleuTurn_compose (s := s.withStream m draws d events) hcompose]
    exact .next _ rfl rfl
  · rw [rleuTurn_resting hrun hcompose, rleuTurn_resting (s := s.withStream m draws d events) hrun hcompose]
    exact .next s.rleu rfl rfl

end Answer

/-! ### Bytes of IN at or beyond IN_LEN -/

section Stream

variable {p : Params} {r r' : Rleu} {s : State} {m : Memory} {draws : Nat} {d : Adpu} {events : List Event}

/-- The header test looks at bytes of IN below IN_LEN only (R127). -/
theorem Rleu.header_congr (h : ∀ a, a < r.inLen → Memory.read m a = Memory.read r.inMem a) :
    Rleu.header { r with inMem := m } = r.header := by
  refine congrArg decodeHeader (Memory.slice_congr fun a _ ha => h a ?_)
  dsimp only at ha
  omega

theorem Rleu.jobBegin_inMem (h : ∀ a, a < r.inLen → Memory.read m a = Memory.read r.inMem a) :
    Rleu.jobBegin { r with inMem := m } = { r.jobBegin with inMem := m } := by
  rw [Rleu.jobBegin_eq, Rleu.jobBegin_eq, Rleu.header_congr h]
  rfl

/-- The job start does the same on a stream that differs at or beyond IN_LEN only (R61, R121 to R128). -/
theorem Rleu.jobStart_inMem (h : ∀ a, a < r.inLen → Memory.read m a = Memory.read r.inMem a) :
    Rleu.jobStart p { r with inMem := m } = { Rleu.jobStart p r with inMem := m } := by
  unfold Rleu.jobStart
  rw [Rleu.jobBegin_inMem h]
  simp only [apply_ite (fun t : Rleu => { t with inMem := m })]
  rfl

theorem Rleu.SameButFree.accepts (h : r.SameButFree r') : r'.accepts = r.accepts :=
  (congrArg Rleu.accepts h.registers :)

/-- The same unit but for free outputs is outside ERR the same unit on another stream. -/
theorem Rleu.SameButFree.eq_withStream (h : Rleu.SameButFree { r with inMem := r'.inMem } r')
    (hne : r.rstate ≠ .err) : r' = r.withStream r'.inMem r'.draws := by
  obtain ⟨hpix, htrl⟩ := h.outputs hne
  calc
    r' = { { r' with pix := r.pix, trl := r.trl, draws := r.draws } with draws := r'.draws } := by rw [← hpix, ← htrl]
    _ = r.withStream r'.inMem r'.draws := congrArg (fun t : Rleu => { t with draws := r'.draws }) h.registers

/-- Two answers that go the same way leave units that are the same but for IN and the outputs in ERR. -/
theorem SameAnswer.sameButFree {o o' : Host.Outcome State Fault Refusal} (h : SameAnswer s m draws d events o o') :
    ∃ r r', o = .next (s.setRleu r) ∧ o' = .next ((s.withStream m draws d events).setRleu r') ∧
      r.inMem = s.rleu.inMem ∧ r'.inMem = m ∧ Rleu.SameButFree { r with inMem := r'.inMem } r' := by
  cases h with
  | next r inMem draws_eq => exact ⟨r, _, rfl, rfl, inMem, rfl, rfl, fun _ => ⟨rfl, rfl⟩⟩
  | error e => exact ⟨_, _, rfl, rfl, rfl, rfl, rfl, fun hne => absurd rfl hne⟩

end Stream

/-- Settles O46: a job start on the other stream is the same one; a turn of a running unit goes the same way
(`rleuTurn_sameAnswer`), and a unit at rest does nothing. -/
theorem streamIsNotReadPastItsLength : Obligations.StreamIsNotReadPastItsLength := by
  refine ⟨fun p r m h => ?_, fun s s' h hparams hsame => ?_⟩
  · rw [Rleu.jobStart_inMem h]
    exact ⟨rfl, fun _ => ⟨rfl, rfl⟩⟩
  · by_cases hrest : s.rleu.accepts = true
    · have hrest' : s'.rleu.accepts = true := hsame.accepts.trans hrest
      obtain ⟨hrun, hcompose⟩ := s.rleu.accepts_iff.mp hrest
      obtain ⟨hrun', hcompose'⟩ := s'.rleu.accepts_iff.mp hrest'
      exact ⟨_, _, rleuTurn_resting hrun hcompose, rleuTurn_resting hrun' hcompose', rfl, rfl, hsame⟩
    · have hne : s.rleu.rstate ≠ .err := fun he => hrest (by rw [Rleu.accepts, he])
      have hs' : s' = s.withStream s'.rleu.inMem s'.rleu.draws s'.adpu s'.pending := by
        rw [State.withStream, hparams, ← hsame.eq_withStream hne]
      have key := (rleuTurn_sameAnswer (draws := s'.rleu.draws) (d := s'.adpu) (events := s'.pending) h).sameButFree
      rwa [← hs'] at key

/-! ### Interleavings -/

/-- On the same stream the units that two answers leave are the same: no error draws another free value. -/
theorem SameAnswer.beside {s : State} {d : Adpu} {o o' : Host.Outcome State Fault Refusal}
    (h : SameAnswer s s.rleu.inMem s.rleu.draws d s.pending o o') :
    ∃ r, o = .next (s.setRleu r) ∧ o' = .next ((s.setAdpu d).setRleu r) := by
  cases h with
  | next r inMem draws_eq =>
    rw [← inMem, ← draws_eq]
    exact ⟨r, rfl, rfl⟩
  | error e => exact ⟨_, rfl, rfl⟩

/-- RLEU's turn does the same beside every ADPU (R3). -/
theorem rleuTurn_setAdpu (s : State) : ∃ r, ∀ d, rleuTurn (s.setAdpu d) = .next ((s.setAdpu d).setRleu r) := by
  obtain ⟨r, hr, -⟩ := rleuTurn_frame s
  refine ⟨r, fun d => ?_⟩
  obtain ⟨r', hr', hd⟩ := (rleuTurn_sameAnswer (s := s) (d := d) fun _ _ => rfl).beside
  obtain rfl : r = r' := congrArg State.rleu (Host.Outcome.next.inj (hr.symm.trans hr'))
  exact hd

/-- ADPU's turn does the same beside every RLEU (R3). -/
theorem adpuTurn_setRleu (s : State) : ∃ d, ∀ r, adpuTurn (s.setRleu r) = .next ((s.setRleu r).setAdpu d) := by
  by_cases hrun : s.adpu.astate = .run
  · rcases Nat.lt_or_ge s.adpu.apos s.adpu.ainLen with hleft | hconsumed
    · exact ⟨s.adpu.afterSample (decodeCode (Memory.read s.adpu.ain s.adpu.apos) s.adpu.nib),
        fun r => adpuTurn_sample (s := s.setRleu r) hrun hleft⟩
    · exact ⟨s.adpu.finish, fun r => adpuTurn_finish (s := s.setRleu r) hrun hconsumed⟩
  · exact ⟨s.adpu, fun r => adpuTurn_resting (s := s.setRleu r) hrun⟩

/-- A first turn that completes leaves the other turns (R80). -/
theorem turns_succ {turn : State → Host.Outcome State Fault Refusal} {s t : State} (h : turn s = .next t) (n : Nat) :
    turns turn (n + 1) s = turns turn n t := by
  rw [turns, h]

theorem interleave_rleu {s t : State} (h : rleuTurn s = .next t) (order : List UnitName) :
    interleave (.rleu :: order) s = interleave order t := by
  simp only [interleave, h]

theorem interleave_adpu {s t : State} (h : adpuTurn s = .next t) (order : List UnitName) :
    interleave (.adpu :: order) s = interleave order t := by
  simp only [interleave, h]

/-- The turns of `order` from `s` take each unit where its own turns take it, whatever the other unit is (R3, R80). -/
theorem interleave_units (order : List UnitName) (s : State) : ∃ r d,
    (∀ d', turns rleuTurn (order.count .rleu) (s.setAdpu d') = .next ((s.setAdpu d').setRleu r)) ∧
    (∀ r', turns adpuTurn (order.count .adpu) (s.setRleu r') = .next ((s.setRleu r').setAdpu d)) ∧
    interleave order s = .next ((s.setRleu r).setAdpu d) := by
  induction order generalizing s with
  | nil => exact ⟨s.rleu, s.adpu, fun _ => rfl, fun _ => rfl, rfl⟩
  | cons u order ih =>
    cases u with
    | rleu =>
      obtain ⟨q, hq⟩ := rleuTurn_setAdpu s
      obtain ⟨r, d, hr, hd, hi⟩ := ih (s.setRleu q)
      refine ⟨r, d, fun d' => ?_, hd, (interleave_rleu (hq s.adpu) order).trans hi⟩
      rw [List.count_cons_self, turns_succ (hq d')]
      exact hr d'
    | adpu =>
      obtain ⟨q, hq⟩ := adpuTurn_setRleu s
      obtain ⟨r, d, hr, hd, hi⟩ := ih (s.setAdpu q)
      refine ⟨r, d, hr, fun r' => ?_, (interleave_adpu (hq s.rleu) order).trans hi⟩
      rw [List.count_cons_self, turns_succ (hq r')]
      exact hd r'

/-- Settles O51, by induction on the order (`interleave_units`), each unit beside the one that `s` has. -/
theorem interleavingsAgree : Obligations.InterleavingsAgree := by
  intro order s
  obtain ⟨r, d, hr, hd, hi⟩ := interleave_units order s
  exact ⟨_, _, hr s.adpu, hd s.rleu, hi⟩

end Sys2Proof.Machine
end

section
/-! The encoding of the RLE token stream (spec/30_encoding.md): `decode` answers a token exactly for the bytes that
encode it, whatever the pad byte of an odd raw run. -/

namespace Sys2Proof

/-! ### The instructions that an encoding exists for -/

theorem wellFormed_lit_iff (n colour : Byte) : (Instr.lit n colour).wellFormed = true ↔ n ≠ 0x00 :=
  bne_iff_ne

theorem wellFormed_raw_iff (payload : List Byte) :
    (Instr.raw payload).wellFormed = true ↔ 4 ≤ payload.length ∧ payload.length ≤ 255 := by
  rw [Instr.wellFormed, Bool.and_eq_true, decide_eq_true_iff, decide_eq_true_iff]

/-! ### The bytes of an encoding that a decoder looks at -/

/-- How many pad bytes, whose value is ignored, end an encoding: one in an odd raw run (R95, R102). -/
def Instr.padLength : Instr → Nat
  | .raw payload => payload.length % 2
  | _ => 0

/-- The bytes of an encoding without its pad byte (R91 to R95). -/
def Instr.fixedBytes : Instr → List Byte
  | .raw payload => 0x00 :: BitVec.ofNat 8 payload.length :: payload
  | i => encode i

/-- The encoder ends with the pad byte `00` where there is one (R109). -/
theorem encode_eq_fixedBytes_append (i : Instr) : encode i = i.fixedBytes ++ List.replicate i.padLength 0x00 := by
  cases i with
  | raw payload => rfl
  | _ => exact (List.append_nil _).symm

theorem length_fixedBytes_add_padLength {i : Instr} (ht : i.isToken = true) :
    i.fixedBytes.length + i.padLength = i.lengthBytes := by
  cases i with
  | hdr => cases ht
  | sample c => cases ht
  | raw payload =>
    simp only [Instr.fixedBytes, Instr.padLength, Instr.lengthBytes, List.length_cons]
    omega
  | _ => rfl

theorem length_encode {i : Instr} (ht : i.isToken = true) : (encode i).length = i.lengthBytes := by
  rw [encode_eq_fixedBytes_append, List.length_append, List.length_replicate, length_fixedBytes_add_padLength ht]

/-- A byte of a token's encoding is no pad byte if it stands before the end of a raw token's payload (R95). -/
theorem lt_length_fixedBytes_iff {i : Instr} (ht : i.isToken = true) (j : Nat) :
    j < i.fixedBytes.length ↔ j < i.lengthBytes ∧ ∀ payload, i = .raw payload → j < 2 + payload.length := by
  have hlen := length_fixedBytes_add_padLength ht
  cases i with
  | raw payload =>
    simp only [Instr.raw.injEq, forall_eq', ← hlen, Instr.fixedBytes, List.length_cons]
    omega
  | _ =>
    rw [← hlen]
    exact ⟨fun h => ⟨h, nofun⟩, And.left⟩

theorem getElem?_encode {i : Instr} {j : Nat} (hj : j < i.fixedBytes.length) : (encode i)[j]? = i.fixedBytes[j]? := by
  rw [encode_eq_fixedBytes_append, List.getElem?_append_left hj]

/-! ### Decoding is the inverse of encoding -/

/-- An encoded token is decoded before any further bytes, whatever its pad byte (R91 to R95, R102). -/
theorem decode_fixedBytes {i : Instr} (hw : i.wellFormed = true) (ht : i.isToken = true) {pad : List Byte}
    (hpad : pad.length = i.padLength) (rest : List Byte) : decode (i.fixedBytes ++ pad ++ rest) = .token i rest := by
  cases i with
  | raw payload =>
    obtain ⟨h4, h255⟩ := (wellFormed_raw_iff payload).mp hw
    exact decode_raw_bytes rest h4 h255 hpad
  | lit n colour =>
    obtain rfl := List.eq_nil_of_length_eq_zero hpad
    simp only [Instr.fixedBytes, encode, decode, List.append_nil, List.cons_append, List.nil_append,
      selectToken_lit ((wellFormed_lit_iff n colour).mp hw)]
  | hdr => cases ht
  | sample c => cases ht
  | _ =>
    obtain rfl := List.eq_nil_of_length_eq_zero hpad
    rfl

/-- Bytes decode to a token exactly if they begin with its encoding, whatever the pad byte (R91 to R98). -/
theorem decode_eq_token_iff {bytes : List Byte} {i : Instr} {rest : List Byte} :
    decode bytes = .token i rest ↔
      i.wellFormed = true ∧ i.isToken = true ∧
        ∃ pad, pad.length = i.padLength ∧ bytes = i.fixedBytes ++ pad ++ rest := by
  refine ⟨fun h => ?_, fun ⟨hw, ht, pad, hpad, hbytes⟩ => hbytes ▸ decode_fixedBytes hw ht hpad rest⟩
  rcases decode_token_cases h with ⟨n, c, hn, rfl, rfl⟩ | ⟨rfl, rfl⟩ | ⟨rfl, rfl⟩ | ⟨rfl, rfl⟩ | ⟨dx, dy, rfl, rfl⟩ |
    ⟨payload, pad, h4, h255, hpad, rfl, rfl⟩
  · exact ⟨(wellFormed_lit_iff n c).mpr hn, rfl, [], rfl, rfl⟩
  · exact ⟨rfl, rfl, [], rfl, rfl⟩
  · exact ⟨rfl, rfl, [], rfl, rfl⟩
  · exact ⟨rfl, rfl, [], rfl, rfl⟩
  · exact ⟨rfl, rfl, [], rfl, rfl⟩
  · exact ⟨(wellFormed_raw_iff payload).mpr ⟨h4, h255⟩, rfl, pad, hpad, rfl⟩

/-- The header is decoded before at least one byte (R100, R127). -/
theorem decodeHeader_encode_hdr {rest : List Byte} (h : rest ≠ []) :
    decodeHeader (encode .hdr ++ rest) = some .hdr := by
  cases rest with
  | nil => exact absurd rfl h
  | cons b rest => rfl

/-- The two codes of a byte are decoded from its high and its low nibble (R104). -/
theorem decodeCode_packCodes (c c' : Code) :
    decodeCode (packCodes c c') false = c ∧ decodeCode (packCodes c c') true = c' :=
  ⟨BitVec.extractLsb'_append_eq_left, BitVec.extractLsb'_append_eq_right⟩

/-! ### The opcode table -/

/-- A two-byte word under a mask matches a pattern exactly if each byte does (R97). -/
theorem append_and_append_eq_iff (b0 b1 m0 m1 p0 p1 : Byte) :
    (b0 ++ b1) &&& (m0 ++ m1) = p0 ++ p1 ↔ b0 &&& m0 = p0 ∧ b1 &&& m1 = p1 := by
  rw [BitVec.and_append]
  refine ⟨fun h => ⟨?_, ?_⟩, fun ⟨h0, h1⟩ => by rw [h0, h1]⟩
  · simpa only [BitVec.extractLsb'_append_eq_left] using congrArg (BitVec.extractLsb' 8 8) h
  · simpa only [BitVec.extractLsb'_append_eq_right] using congrArg (BitVec.extractLsb' 0 8) h

/-- A row of the opcode table with every bit in its mask matches one pair of bytes (R97). -/
theorem append_and_full_eq_iff (b0 b1 k : Byte) :
    (b0 ++ b1 : BitVec 16) &&& 0xFFFF = (0x00 : Byte) ++ k ↔ b0 = 0x00 ∧ b1 = k := by
  have h := append_and_append_eq_iff b0 b1 0xFF 0xFF 0x00 k
  rwa [show b0 &&& 0xFF = b0 from BitVec.and_allOnes, show b1 &&& 0xFF = b1 from BitVec.and_allOnes] at h

/-- RAW's row looks at the first byte only (R97). -/
theorem append_and_high_eq_iff (b0 b1 : Byte) : (b0 ++ b1 : BitVec 16) &&& 0xFF00 = 0x0000 ↔ b0 = 0x00 := by
  have h := append_and_append_eq_iff b0 b1 0xFF 0x00 0x00 0x00
  rw [show b0 &&& 0xFF = b0 from BitVec.and_allOnes, show b1 &&& 0x00 = 0x00 from BitVec.and_zero] at h
  exact h.trans (and_iff_left rfl)

theorem firstMatch_cons (row : TableRow) (table : List TableRow) (w : BitVec 16) :
    firstMatch (row :: table) w = if w &&& row.mask = row.pattern then some row.kind else firstMatch table w := by
  unfold firstMatch
  by_cases h : w &&& row.mask = row.pattern
  · rw [if_pos h, List.find?_cons, beq_iff_eq.mpr h]
    rfl
  · rw [if_neg h, List.find?_cons, beq_eq_false_iff_ne.mpr h]

/-- The six rows in their order as conditions on the two bytes (R97). -/
theorem firstMatch_tokenTable (b0 b1 : Byte) :
    firstMatch tokenTable (b0 ++ b1) =
      if b0 = 0x00 ∧ b1 = 0x00 then some .eor
      else if b0 = 0x00 ∧ b1 = 0x01 then some .eoi
      else if b0 = 0x00 ∧ b1 = 0x02 then some .trn
      else if b0 = 0x00 ∧ b1 = 0x03 then some .repos
      else if b0 = 0x00 then some .raw
      else some .lit := by
  have eor : (b0 ++ b1 : BitVec 16) &&& 0xFFFF = 0x0000 ↔ _ := append_and_full_eq_iff b0 b1 0x00
  have eoi : (b0 ++ b1 : BitVec 16) &&& 0xFFFF = 0x0001 ↔ _ := append_and_full_eq_iff b0 b1 0x01
  have trn : (b0 ++ b1 : BitVec 16) &&& 0xFFFF = 0x0002 ↔ _ := append_and_full_eq_iff b0 b1 0x02
  have repos : (b0 ++ b1 : BitVec 16) &&& 0xFFFF = 0x0003 ↔ _ := append_and_full_eq_iff b0 b1 0x03
  have lit : (b0 ++ b1 : BitVec 16) &&& 0x0000 = 0x0000 := BitVec.and_zero
  simp only [tokenTable, firstMatch_cons, eor, eoi, trn, repos, append_and_high_eq_iff, lit, if_true]

/-! ### The obligations -/

/-- Settles O2: a token's own encoding is one of those of `decode_fixedBytes`. -/
theorem decodeOfEncode : Obligations.DecodeOfEncode := by
  refine ⟨fun i rest hw ht => ?_, fun _ => decodeHeader_encode_hdr, decodeCode_packCodes⟩
  rw [encode_eq_fixedBytes_append]
  exact decode_fixedBytes hw ht List.length_replicate rest

/-- Settles O3, by the form of the bytes in `decode_eq_token_iff`. -/
theorem decodedBytesAreTheEncoding : Obligations.DecodedBytesAreTheEncoding := by
  intro bytes i rest h
  obtain ⟨hw, ht, pad, hpad, rfl⟩ := decode_eq_token_iff.mp h
  have hlen : (i.fixedBytes ++ pad).length = i.lengthBytes := by
    rw [List.length_append, hpad, length_fixedBytes_add_padLength ht]
  refine ⟨hw, ht, ?_, List.drop_left' hlen, length_encode ht, fun j hj hpayload => ?_⟩
  · rw [List.length_append, hlen]
    exact Nat.le_add_right ..
  · have hfixed := (lt_length_fixedBytes_iff ht j).mpr ⟨hj, hpayload⟩
    rw [getElem?_encode hfixed, List.append_assoc, List.getElem?_append_left hfixed]

/-- Settles O4: the conditions of the rows and those of the opcode map, byte by byte. -/
theorem tableRowsAgreeWithTheOpcodeMap : Obligations.TableRowsAgreeWithTheOpcodeMap := by
  intro b0 b1
  rw [firstMatch_tokenTable, selectToken]
  by_cases h0 : b0 = 0x00
  · simp only [h0, true_and, ne_eq, not_true_eq_false, if_false, if_true, apply_ite some]
  · simp only [h0, false_and, ne_eq, not_false_eq_true, if_false, if_true]

/-- Settles O5: one byte is the pad of an odd raw run, whichever it is (`decode_fixedBytes`). -/
theorem padByteIsIgnored : Obligations.PadByteIsIgnored := by
  intro k payload rest pad pad' h4 hodd hlen
  have hk : BitVec.ofNat 8 payload.length = k := by rw [hlen, BitVec.ofNat_toNat, BitVec.setWidth_eq]
  have hbyte := k.isLt
  have hw : (Instr.raw payload).wellFormed = true := (wellFormed_raw_iff payload).mpr (by omega)
  have decoded (b : Byte) : decode (0x00 :: k :: payload ++ b :: rest) = .token (.raw payload) rest := by
    have h := decode_fixedBytes (pad := [b]) hw rfl (by rw [Instr.padLength, hlen, hodd]; rfl) rest
    rwa [Instr.fixedBytes, hk, List.append_assoc] at h
  exact ⟨(decoded pad).trans (decoded pad').symm, decoded pad⟩

/-- Settles O1: the decoder evaluated on each word. -/
theorem wordsFromTheSpecDecode : Obligations.WordsFromTheSpecDecode := by
  refine ⟨?_, ?_, ?_, ?_, ?_, ?_, ?_, ?_, ?_⟩
  all_goals decide

end Sys2Proof
end

section
/-! Where the units fetch and that their turns go on (spec/30_encoding.md R91, R107): the token at POS, the header at the
start of a job, and the answers of a turn. -/

namespace Sys2Proof.Machine

/-! ### The token at POS -/

theorem Memory.getElem?_slice (m : Memory) {a n j : Nat} (hj : j < n) :
    (Memory.slice m a n)[j]? = some (Memory.read m (a + j)) := by
  induction n generalizing a j with
  | zero => cases hj
  | succ k ih =>
    cases j with
    | zero => rfl
    | succ j =>
      rw [Memory.slice, List.getElem?_cons_succ, ih (Nat.lt_of_succ_lt_succ hj), Nat.add_right_comm]
      rfl

theorem Memory.slice_add (m : Memory) (a k n : Nat) :
    Memory.slice m a (k + n) = Memory.slice m a k ++ Memory.slice m (a + k) n := by
  induction k generalizing a with
  | zero => rw [Nat.zero_add]; rfl
  | succ k ih => rw [Nat.succ_add, Memory.slice, Memory.slice, ih, Nat.add_right_comm]; rfl

/-- Bytes that stand in a memory from `a` are what is read there. -/
theorem Memory.slice_eq_of_read {m : Memory} {a : Nat} {bytes : List Byte}
    (h : ∀ j < bytes.length, bytes[j]? = some (Memory.read m (a + j))) : Memory.slice m a bytes.length = bytes := by
  refine List.ext_getElem? fun j => ?_
  rcases Nat.lt_or_ge j bytes.length with hj | hj
  · rw [Memory.getElem?_slice m hj, h j hj]
  · rw [List.getElem?_eq_none hj, List.getElem?_eq_none (by rwa [Memory.length_slice])]

/-- The bytes of a fetched token, but for its pad byte, stand at POS (R129). -/
theorem Rleu.fetch_token_bytes {r : Rleu} {i : Instr} {tail : List Byte} (h : r.fetch = .token i tail) {j : Nat}
    (hj : j < i.fixedBytes.length) : i.fixedBytes[j]? = some (Memory.read r.inMem (r.pos + j)) := by
  obtain ⟨-, -, pad, -, hbytes⟩ := decode_eq_token_iff.mp h
  have hlen : j < min (r.inLen - r.pos) maxTokenBytes := by
    have := congrArg List.length hbytes
    rw [Rleu.remaining, Memory.length_slice, List.length_append, List.length_append] at this
    omega
  calc
    i.fixedBytes[j]? = r.remaining[j]? := by rw [hbytes, List.append_assoc, List.getElem?_append_left hj]
    _ = some (Memory.read r.inMem (r.pos + j)) := Memory.getElem?_slice _ hlen

/-- The size of an encoding, for every instruction (R42 (a), R91, R98). -/
theorem encodeLength (i : Instr) : Laws.EncodeLength.Statement i := by
  cases i with
  | hdr => exact Laws.EncodeLength.hdr
  | eor => exact Laws.EncodeLength.eor
  | eoi => exact Laws.EncodeLength.eoi
  | trn => exact Laws.EncodeLength.trn
  | repos dx dy => exact Laws.EncodeLength.repos dx dy
  | raw payload => exact Laws.EncodeLength.raw payload
  | lit n colour => exact Laws.EncodeLength.lit n colour
  | sample c => exact Laws.EncodeLength.sample c

/-- A whole token at POS below IN_LEN is fetched (R129, R162). -/
theorem Rleu.fetch_of_bytes {r : Rleu} {i : Instr} (hw : i.wellFormed = true) (ht : i.isToken = true)
    (hl : r.pos + i.lengthBytes ≤ r.inLen)
    (h : ∀ j < i.fixedBytes.length, i.fixedBytes[j]? = some (Memory.read r.inMem (r.pos + j))) :
    ∃ tail, r.fetch = .token i tail := by
  obtain ⟨-, -, hmax⟩ := encodeLength i hw
  obtain ⟨n, hn⟩ : ∃ n, min (r.inLen - r.pos) maxTokenBytes = i.fixedBytes.length + i.padLength + n :=
    Nat.exists_eq_add_of_le (by rw [length_fixedBytes_add_padLength ht]; omega)
  rw [Rleu.fetch, Rleu.remaining, hn, Memory.slice_add, Memory.slice_add, Memory.slice_eq_of_read h]
  exact ⟨_, decode_fixedBytes hw ht (Memory.length_slice ..) _⟩

/-! ### The header at the start of a job -/

/-- A stream of three bytes or more has the header exactly if it begins `00 00` (R100, R127). -/
theorem Rleu.header_isSome_iff {r : Rleu} (h : 3 ≤ r.inLen) :
    r.header.isSome = true ↔ Memory.read r.inMem 0 = 0x00 ∧ Memory.read r.inMem 1 = 0x00 := by
  rw [Rleu.header, Nat.min_eq_right h]
  simp [Memory.slice, decodeHeader]

/-! ### The answers of a turn and of a move of HOST -/

/-- ADPU's turn leaves AERR_CODE, and ASTATE or sets it to DONE (R107, R202). -/
theorem adpuTurn_status (s : State) : ∃ d, adpuTurn s = .next (s.setAdpu d) ∧ d.aerrCode = s.adpu.aerrCode ∧
    (d.astate = s.adpu.astate ∨ d.astate = .done) := by
  by_cases hrun : s.adpu.astate = .run
  · rcases Nat.lt_or_ge s.adpu.apos s.adpu.ainLen with hleft | hconsumed
    · exact ⟨_, (adpuTurn_sample hrun hleft).trans (exec_sample_eq _ s), rfl, .inl rfl⟩
    · exact ⟨_, adpuTurn_finish hrun hconsumed, rfl, .inr rfl⟩
  · exact ⟨s.adpu, adpuTurn_resting hrun, rfl, .inl rfl⟩

theorem ite_ne_fault {c : Prop} [Decidable c] {o o' : Host.Outcome State Fault Refusal} {f : Fault}
    (h : o ≠ .fault f) (h' : o' ≠ .fault f) : (if c then o else o') ≠ .fault f := by
  split
  · exact h
  · exact h'

theorem writeRleuParameter_ne_fault (s : State) (r : Rleu) (f : Fault) : writeRleuParameter s r ≠ .fault f :=
  ite_ne_fault nofun nofun

theorem writeRleuLength_ne_fault (s : State) (v : Nat) (r : Rleu) (f : Fault) : writeRleuLength s v r ≠ .fault f :=
  ite_ne_fault (writeRleuParameter_ne_fault _ _ _) nofun

theorem writeRleuMemory_ne_fault (s : State) (r : Rleu) (f : Fault) : writeRleuMemory s r ≠ .fault f :=
  ite_ne_fault nofun nofun

/-- A move of HOST completes or is refused (R264 to R269). -/
theorem hostMove_ne_fault (m : HostMove) (s : State) (f : Fault) : hostMove m s ≠ .fault f := by
  cases m with
  | writeFrameW v => exact writeRleuParameter_ne_fault _ _ _
  | writeFrameH v => exact writeRleuParameter_ne_fault _ _ _
  | writeCanvasW v => exact writeRleuParameter_ne_fault _ _ _
  | writeCanvasH v => exact writeRleuParameter_ne_fault _ _ _
  | writeFrameX v => exact writeRleuParameter_ne_fault _ _ _
  | writeFrameY v => exact writeRleuParameter_ne_fault _ _ _
  | writeRctrl v => exact writeRleuParameter_ne_fault _ _ _
  | writeInLen v => exact writeRleuLength_ne_fault _ _ _ _
  | writeKeyLen v => exact writeRleuLength_ne_fault _ _ _ _
  | writeIn a v => exact writeRleuMemory_ne_fault _ _ _
  | writeKey a v => exact writeRleuMemory_ne_fault _ _ _
  | rleStart => exact ite_ne_fault nofun (ite_ne_fault nofun nofun)
  | writeAinLen v => exact ite_ne_fault nofun (ite_ne_fault nofun nofun)
  | writeAin a v => exact ite_ne_fault nofun nofun
  | adpStart => exact ite_ne_fault nofun (ite_ne_fault nofun nofun)
  | reset => exact nofun

/-- RLEU completes every turn (R132, R276). -/
theorem rleuTurn_completes (s : State) : ∃ t, rleuTurn s = .next t := by
  obtain ⟨r, hr, -⟩ := rleuTurn_frame s
  exact ⟨_, hr⟩

/-- ADPU completes every turn (R107, R202). -/
theorem adpuTurn_completes (s : State) : ∃ t, adpuTurn s = .next t := by
  obtain ⟨d, hd, -⟩ := adpuTurn_frame s
  exact ⟨_, hd⟩

/-- A step that takes no move of HOST is a turn of a unit, so it completes (R132, R276). -/
theorem step_completes {s : State} (h : ∀ m events, s.pending ≠ .host m :: events) : ∃ t, step s = .next t := by
  cases hp : s.pending with
  | nil =>
    rw [step_pending_nil hp]
    split
    · exact adpuTurn_completes s
    · exact rleuTurn_completes s
  | cons event events =>
    cases event with
    | rleu => exact step_pending_rleu hp ▸ rleuTurn_completes _
    | adpu => exact step_pending_adpu hp ▸ adpuTurn_completes _
    | host m => exact absurd hp (h m events)

/-! ### The obligations -/

/-- Settles O8, by the fetch in both directions: `Rleu.fetch_token_bytes` and `Rleu.fetch_of_bytes`. -/
theorem fetchReadsTheStreamAtPos : Obligations.FetchReadsTheStreamAtPos := by
  refine ⟨fun r i tail h => ?_, fun r i hw ht hl h => Rleu.fetch_of_bytes hw ht hl fun j hj => ?_⟩
  · obtain ⟨-, ht, hl⟩ := Rleu.fetch_token h
    refine ⟨hl, fun j hj hpayload => ?_⟩
    have hfixed := (lt_length_fixedBytes_iff ht j).mpr ⟨hj, hpayload⟩
    rw [getElem?_encode hfixed]
    exact Rleu.fetch_token_bytes h hfixed
  · obtain ⟨hlt, hpayload⟩ := (lt_length_fixedBytes_iff ht j).mp hj
    rw [← getElem?_encode hj]
    exact h j hlt hpayload

/-- Settles O12: where a job begins, `Rleu.jobBegin_eq` says which header test sets POS. -/
theorem headerIsSkipped : Obligations.HeaderIsSkipped := by
  refine ⟨fun _ => rfl, fun p r hg hk hc hl => ?_⟩
  rw [Rleu.jobStart_begin hg hk hc, Rleu.jobBegin_eq]
  refine ⟨?_, rfl, rfl⟩
  have long : 2 < r.inLen := hl
  simp only [long, true_and, Rleu.header_isSome_iff hl]

/-- Settles O49: both units complete every turn, and a move of HOST completes or is refused. -/
theorem unitsNeverStop : Obligations.UnitsNeverStop := by
  intro s
  refine ⟨rleuTurn_completes s, adpuTurn_completes s, fun f hf => ?_, step_completes⟩
  by_cases h : ∃ m events, s.pending = .host m :: events
  · obtain ⟨m, events, hp⟩ := h
    exact hostMove_ne_fault m _ f ((step_pending_host hp).symm.trans hf)
  · obtain ⟨t, ht⟩ := step_completes fun m events hp => h ⟨m, events, hp⟩
    cases ht.symm.trans hf

/-- Settles O53: a turn of ADPU leaves ASTATE or sets it to DONE (`adpuTurn_status`). -/
theorem adpuTurnsNeverRaise : Obligations.AdpuTurnsNeverRaise := by
  intro s t h
  obtain ⟨d, hd, herr, hstate⟩ := adpuTurn_status s
  obtain rfl : s.setAdpu d = t := Host.Outcome.next.inj (hd.symm.trans h)
  refine ⟨herr, fun he => ?_⟩
  rcases hstate with hkept | hdone
  · exact hkept.symm.trans he
  · cases hdone.symm.trans he

end Sys2Proof.Machine
end

section
/-! Job control of RLEU (spec/40_rle_job_control.md): the checks of the job-start step, the answers of a token
fetch, how the token pass ends and that it ends, and the optional header. -/

namespace Sys2Proof.Machine

/-! ### The checks of the job-start step -/

theorem Rleu.toNat_jobCanvasW (r : Rleu) :
    r.jobCanvasW.toNat = if r.rctrl.cwSet then r.canvasW.toNat else r.frameW.toNat :=
  apply_ite ..

theorem Rleu.toNat_jobCanvasH (r : Rleu) :
    r.jobCanvasH.toNat = if r.rctrl.chSet then r.canvasH.toNat else r.frameH.toNat :=
  apply_ite ..

/-- The geometry check in numbers (R121). -/
theorem Rleu.geometryOverflows_iff (r : Rleu) :
    r.geometryOverflows = true ↔
      r.frameX.toNat + r.frameW.toNat > r.jobCanvasW.toNat ∨ r.frameY.toNat + r.frameH.toNat > r.jobCanvasH.toNat := by
  rw [Rleu.geometryOverflows, Bool.or_eq_true, decide_eq_true_iff, decide_eq_true_iff]

/-- The keyframe size check in numbers (R122). -/
theorem Rleu.keySizeMismatches_iff (r : Rleu) :
    r.keySizeMismatches = true ↔
      r.rctrl.keyPresent = true ∧ r.keyLen ≠ r.jobCanvasW.toNat * r.jobCanvasH.toNat := by
  rw [Rleu.keySizeMismatches, Bool.and_eq_true, decide_eq_true_iff]
  rfl

/-- What does not fit a memory exceeds a capacity that the memory has (R12, R123). -/
theorem withinCap_eq_false_iff (cap : Option Nat) (n : Nat) :
    withinCap cap n = false ↔ ∃ c, cap = some c ∧ c < n := by
  cases cap with
  | none => simp
  | some c => simp

theorem Rleu.jobStart_geometryOverflow {r : Rleu} (p : Params) (hg : r.geometryOverflows = true) :
    Rleu.jobStart p r = Rleu.jobError p r .geometryOverflow :=
  if_pos hg

theorem Rleu.jobStart_sizeMismatch {r : Rleu} (p : Params) (hg : r.geometryOverflows = false)
    (hk : r.keySizeMismatches = true) : Rleu.jobStart p r = Rleu.jobError p r .sizeMismatch :=
  (if_neg (Bool.eq_false_iff.mp hg)).trans (if_pos hk)

theorem Rleu.jobStart_allocationFailure {p : Params} {r : Rleu} (hg : r.geometryOverflows = false)
    (hk : r.keySizeMismatches = false) (hc : withinCap p.pixCap r.jobPixels = false) :
    Rleu.jobStart p r = Rleu.jobError p r .allocationFailure := by
  simp [Rleu.jobStart, hg, hk, hc]

/-- A job that begins is in RUN, COMPOSE or DONE (R124 to R128). -/
theorem Rleu.jobBegin_rstate_ne_err (r : Rleu) : r.jobBegin.rstate ≠ .err := by
  rw [Rleu.jobBegin_eq]
  dsimp only
  split
  · nofun
  · split <;> nofun

/-- An error of the job start has the context `(0, FRAME_Y, FRAME_X)` (R41, R236). -/
theorem jobError_raisedTo (s : State) (e : ErrCode) :
    RaisedTo s (s.setRleu (Rleu.jobError s.params s.rleu e)) e 0 s.rleu.frameY.toNat s.rleu.frameX.toNat :=
  rfl

/-- RLE_START at rest with the parameters written is the job-start step (R120, R264). -/
theorem rleStart_starts {s : State} (ha : s.rleu.accepts = true) (hw : s.rleu.parametersWritten = true) :
    rleStart s = .next (s.setRleu (Rleu.jobStart s.params s.rleu)) := by
  unfold rleStart
  rw [ha, hw]
  rfl

/-- Settles O29: the three checks in the order of the job-start step, each in numbers. -/
theorem jobStartErrors : Obligations.JobStartErrors := by
  intro s hrun hcompose hw cw ch badGeometry badKey noRoom raises
  have hcw : cw = s.rleu.jobCanvasW.toNat := s.rleu.toNat_jobCanvasW.symm
  have hch : ch = s.rleu.jobCanvasH.toNat := s.rleu.toNat_jobCanvasH.symm
  have hgeometry : s.rleu.geometryOverflows = true ↔ badGeometry := by
    rw [Rleu.geometryOverflows_iff, ← hcw, ← hch]
  have hkey : s.rleu.keySizeMismatches = true ↔ badKey := by
    rw [Rleu.keySizeMismatches_iff, ← hcw, ← hch]
  have hroom : withinCap s.params.pixCap s.rleu.jobPixels = false ↔ noRoom := by
    rw [withinCap_eq_false_iff, Rleu.jobPixels, ← hcw, ← hch]
  have hstart : hostMove .rleStart s = .next (s.setRleu (Rleu.jobStart s.params s.rleu)) :=
    rleStart_starts (Rleu.accepts_of_resting hrun hcompose) hw
  have raised {e : ErrCode} (h : Rleu.jobStart s.params s.rleu = Rleu.jobError s.params s.rleu e) : raises e :=
    ⟨_, hstart, h ▸ jobError_raisedTo s e⟩
  refine ⟨hstart, fun hg => ?_, fun hg hk => ?_, fun hg hk hc => ?_, fun hg hk hc => ⟨_, hstart, ?_⟩⟩
  · exact raised (Rleu.jobStart_geometryOverflow _ (hgeometry.mpr hg))
  all_goals replace hg := Bool.eq_false_iff.mpr (mt hgeometry.mp hg)
  · exact raised (Rleu.jobStart_sizeMismatch _ hg (hkey.mpr hk))
  all_goals replace hk := Bool.eq_false_iff.mpr (mt hkey.mp hk)
  · exact raised (Rleu.jobStart_allocationFailure hg hk (hroom.mpr hc))
  · have hc : withinCap s.params.pixCap s.rleu.jobPixels = true := Bool.not_eq_false _ ▸ mt hroom.mp hc
    rw [State.setRleu_rleu, Rleu.jobStart_begin hg hk hc]
    exact ⟨Rleu.jobBegin_rstate_ne_err _, by rw [Rleu.jobBegin_eq]; rfl⟩

/-! ### The answers of a token fetch -/

/-- A token that the fetch decodes is executed (R129). -/
theorem rleuTurn_token {s : State} {i : Instr} {tail : List Byte} (hrun : s.rleu.rstate = .run)
    (hf : s.rleu.fetch = .token i tail) : rleuTurn s = exec i s := by
  rw [rleuTurn_run hrun, tokenStep, hf]

/-- With every byte consumed the token pass ends (R130). -/
theorem rleuTurn_exhausted {s : State} (hrun : s.rleu.rstate = .run) (hl : s.rleu.inLen ≤ s.rleu.pos) :
    rleuTurn s = .next (s.setRleu s.rleu.endPass) := by
  rw [rleuTurn_run hrun, tokenStep, (Rleu.fetch_exhausted_iff _).mpr hl]

/-- A token that misses a byte raises TruncatedStream (R131, R232). -/
theorem rleuTurn_truncated {s : State} (hrun : s.rleu.rstate = .run) (hf : s.rleu.fetch = .truncated) :
    rleuTurn s = tokenError s .truncatedStream := by
  rw [rleuTurn_run hrun, tokenStep, hf]

/-- One byte is no whole token (R91, R131). -/
theorem Rleu.fetch_one_byte {r : Rleu} (h : r.pos + 1 = r.inLen) : r.fetch = .truncated := by
  have hone : min (r.inLen - r.pos) maxTokenBytes = 1 := by
    unfold maxTokenBytes
    omega
  rw [Rleu.fetch, Rleu.remaining, hone]
  rfl

/-- Settles O6: the fetch decodes well-formed tokens only, and the turn in RUN executes them. -/
theorem stepRunsTheDecodedToken : Obligations.StepRunsTheDecodedToken := by
  intro s i tail events hrun hf
  obtain ⟨hw, ht, -⟩ := Rleu.fetch_token hf
  exact ⟨hw, ht, fun hp => (step_pending_rleu hp).trans (rleuTurn_token (s := s.setPending events) hrun hf),
    fun hp => (step_idle_rleu hp (.inl hrun)).trans (rleuTurn_token hrun hf)⟩

/-- Settles O9: the end of the token pass is this update of RLEU. -/
theorem exhaustionEndsThePass : Obligations.ExhaustionEndsThePass :=
  fun _ => rleuTurn_exhausted

/-- Settles O10: a single byte decodes to no token. -/
theorem missingSecondByteIsTruncated : Obligations.MissingSecondByteIsTruncated := by
  intro s hrun hone
  rw [rleuTurn_truncated hrun (Rleu.fetch_one_byte hone)]
  exact tokenError_raises s _

/-! ### The ends of the token pass -/

/-- The tokens that end the pass are EOI and an EOR that reaches the row limit (R132, R154, R155). -/
theorem TokenDone.ends_pass {p : Params} {i : Instr} {r t : Rleu} (h : TokenDone p i r t) (hrun : r.rstate = .run)
    (ht : t.rstate = .compose) : i = .eoi ∨ (i = .eor ∧ r.row + 1 ≥ r.rowLimit) := by
  have hne : r.rstate ≠ .compose := by rw [hrun]; nofun
  rcases h.effect with ⟨rfl, rfl⟩ | ⟨rfl, -⟩ | ⟨-, rfl⟩ | ⟨dx, dy, -, -, rfl⟩ | ⟨payload, -, -, -, rfl⟩ |
    ⟨n, colour, -, -, ⟨-, rfl⟩ | ⟨-, -, rfl⟩⟩
  · by_cases hlast : r.row + 1 ≥ r.rowLimit
    · exact .inr ⟨rfl, hlast⟩
    · exact absurd ((if_neg hlast).symm.trans ht) hne
  · exact .inl rfl
  all_goals exact absurd ht hne

/-- A turn in RUN that leads to COMPOSE found the input exhausted, or EOI, or EOR at the row limit (R132). -/
theorem rleuTurn_compose_of {s t : State} (hrun : s.rleu.rstate = .run) (h : rleuTurn s = .next t)
    (ht : t.rleu.rstate = .compose) :
    s.rleu.fetch = .exhausted ∨ (∃ rest, s.rleu.fetch = .token .eoi rest) ∨
      (∃ rest, s.rleu.fetch = .token .eor rest ∧ s.rleu.row + 1 ≥ s.rleu.rowLimit) := by
  rcases rleuTurn_run_cases hrun with ⟨-, hf, -⟩ | ⟨e, -, -, hx⟩ | ⟨i, rest, r, hf, -, -, hr, hdone⟩
  · exact .inl hf
  · obtain rfl := Host.Outcome.next.inj (hx.symm.trans h)
    cases ht
  · obtain rfl := Host.Outcome.next.inj (hr.symm.trans h)
    rcases hdone.ends_pass hrun ht with rfl | ⟨rfl, hlast⟩
    · exact .inr (.inl ⟨rest, hf⟩)
    · exact .inr (.inr ⟨rest, hf, hlast⟩)

/-- After a turn in RUN the unit is in RUN or COMPOSE, or in ERR with one of the three errors of a token (R132). -/
theorem rleuTurn_run_rstate {s t : State} (hrun : s.rleu.rstate = .run) (h : rleuTurn s = .next t) :
    t.rleu.rstate = .run ∨ t.rleu.rstate = .compose ∨
      (t.rleu.rstate = .err ∧ (t.rleu.errCode = .truncatedStream ∨ t.rleu.errCode = .writeOutOfCanvas ∨
        t.rleu.errCode = .allocationFailure)) := by
  rcases rleuTurn_run_cases hrun with ⟨-, -, he⟩ | ⟨e, hkind, -, hx⟩ | ⟨i, rest, r, -, -, -, hr, hdone⟩
  · obtain rfl := Host.Outcome.next.inj (he.symm.trans h)
    exact .inr (.inl rfl)
  · obtain rfl := Host.Outcome.next.inj (hx.symm.trans h)
    exact .inr (.inr ⟨rfl, hkind⟩)
  · obtain rfl := Host.Outcome.next.inj (hr.symm.trans h)
    rcases hdone.rstate_cases with hkept | ⟨hcompose, -⟩
    · exact .inl (hkept.trans hrun)
    · exact .inr (.inl hcompose)

/-- Settles O52: each of the three fetches is executed by a known update, and no other turn leads to COMPOSE. -/
theorem passEndsInOneOfThreeWays : Obligations.PassEndsInOneOfThreeWays := by
  intro s t hrun h
  have hstate := rleuTurn_run_rstate hrun h
  refine ⟨⟨rleuTurn_compose_of hrun h, ?_⟩, ?_, fun herr => ?_⟩
  · rintro (hf | ⟨rest, hf⟩ | ⟨rest, hf, hlast⟩)
    · obtain rfl := Host.Outcome.next.inj
        ((rleuTurn_exhausted hrun ((Rleu.fetch_exhausted_iff _).mp hf)).symm.trans h)
      rfl
    · obtain rfl := Host.Outcome.next.inj ((rleuTurn_token hrun hf).symm.trans h)
      rfl
    · obtain rfl := Host.Outcome.next.inj (((rleuTurn_token hrun hf).trans (execEor_eq s)).symm.trans h)
      exact if_pos hlast
  · exact hstate.imp_right (Or.imp_right And.left)
  · rcases hstate with hr | hc | ⟨-, hkind⟩
    · cases hr.symm.trans herr
    · cases hc.symm.trans herr
    · exact hkind

/-! ### The end of a job -/

/-- From COMPOSE one turn leads to DONE (R180). -/
theorem turns_compose {s : State} (h : s.rleu.rstate = .compose) :
    turns rleuTurn 1 s = .next (s.setRleu s.rleu.composite) :=
  turns_succ (rleuTurn_compose h) 0

/-- A turn in RUN that leaves the unit there consumes two bytes at least, all of them below IN_LEN (R34, R42 (a)). -/
theorem rleuTurn_consumes {s t : State} (hrun : s.rleu.rstate = .run) (h : rleuTurn s = .next t)
    (ht : t.rleu.rstate = .run) :
    s.rleu.pos + 2 ≤ t.rleu.pos ∧ t.rleu.pos ≤ s.rleu.inLen ∧ t.rleu.inLen = s.rleu.inLen := by
  obtain ⟨hpos, -, hbound, -⟩ := cursorNeverMovesBack s t hrun h ht
  obtain ⟨hinputs, -⟩ := unitsKeepTheirInputs.1 s t h
  exact ⟨hpos, hinputs.inLen ▸ hbound, hinputs.inLen⟩

/-- Settles O50, by induction on the bytes that are left of the stream. -/
theorem rleuJobEnds : Obligations.RleuJobEnds := by
  intro s
  induction hleft : s.rleu.inLen - s.rleu.pos using Nat.strong_induction_on generalizing s with
  | _ left ih =>
    intro hrun
    obtain ⟨t, ht⟩ := rleuTurn_completes s
    rcases rleuTurn_run_rstate hrun ht with hgoes | hcompose | ⟨herr, -⟩
    · obtain ⟨hpos, hbound, hlen⟩ := rleuTurn_consumes hrun ht hgoes
      obtain ⟨n, u, hn, hu, hend⟩ := ih _ (by omega) t rfl hgoes
      exact ⟨n + 1, u, by omega, (turns_succ ht n).trans hu, hend⟩
    · exact ⟨2, _, by omega, (turns_succ ht 1).trans (turns_compose hcompose), .inl rfl⟩
    · exact ⟨1, t, by omega, turns_succ ht 0, .inr herr⟩

/-! ### The optional header -/

section Header

/-- RLEU `r` on a stream two bytes longer, IN, ERR_POS and the draw counter being those of `q`. -/
def Rleu.behindHeader (r q : Rleu) : Rleu :=
  { r with inMem := q.inMem, inLen := r.inLen + 2, pos := r.pos + 2, errPos := q.errPos, draws := q.draws }

/-- MSDEC with RLEU behind a header and the rest of `q`. -/
def State.behindHeader (s q : State) : State :=
  ⟨s.params, s.rleu.behindHeader q.rleu, q.adpu, q.pending⟩

/-- The memory `m` holds the stream of `m'` after two more bytes. -/
def Memory.TwoBytesBefore (m m' : Memory) : Prop :=
  ∀ a, Memory.read m (a + 2) = Memory.read m' a

variable {p : Params} {r r' q : Rleu} {m : Memory} {s : State}

/-- Two units on the two streams go the same way where neither is in ERR. -/
theorem Rleu.behindHeader_withHeader (hm : q.inMem.TwoBytesBefore r.inMem) (live : r.rstate ≠ .err) :
    r.WithHeader (r.behindHeader q) where
  inLen := rfl
  stream := hm
  pos _ := rfl
  errPos herr := absurd herr live
  rest := ⟨rfl, fun _ => ⟨rfl, rfl⟩⟩

/-- Outside ERR, where POS is 2 more, going the same way determines the unit but for IN, ERR_POS and the draw
counter. -/
theorem Rleu.WithHeader.eq_behindHeader (h : r.WithHeader r') (hr : r.rstate = .run ∨ r.rstate = .compose) :
    r' = r.behindHeader r' := by
  have hpos := h.pos (hr.imp_right .inl)
  obtain ⟨hpix, htrl⟩ := h.rest.outputs fun herr => by simp [herr] at hr
  calc
    r' = { r' with inLen := r.inLen + 2, pos := r.pos + 2, pix := r.pix, trl := r.trl } := by
      rw [← h.inLen, ← hpos, ← hpix, ← htrl]
    _ = r.behindHeader r' := congrArg (Rleu.behindHeader · r') h.rest.registers

/-! #### The job start -/

/-- Two units whose checks see the same numbers raise the same error at the job start, or both begin (R121 to R123). -/
theorem Rleu.jobStart_alike (p : Params) (hg : r'.geometryOverflows = r.geometryOverflows)
    (hk : r'.keySizeMismatches = r.keySizeMismatches) (hp : r'.jobPixels = r.jobPixels) :
    (∃ e, (e = .geometryOverflow ∨ e = .sizeMismatch ∨ e = .allocationFailure) ∧
      Rleu.jobStart p r = Rleu.jobError p r e ∧ Rleu.jobStart p r' = Rleu.jobError p r' e) ∨
    (Rleu.jobStart p r = r.jobBegin ∧ Rleu.jobStart p r' = r'.jobBegin) := by
  unfold Rleu.jobStart
  rw [hg, hk, hp]
  cases r.geometryOverflows
  · cases r.keySizeMismatches
    · cases withinCap p.pixCap r.jobPixels
      · exact .inl ⟨_, .inr (.inr rfl), rfl, rfl⟩
      · exact .inr ⟨rfl, rfl⟩
    · exact .inl ⟨_, .inr (.inl rfl), rfl, rfl⟩
  · exact .inl ⟨_, .inl rfl, rfl, rfl⟩

/-- A job that begins on a stream longer than two bytes (R124, R127, R128). -/
theorem Rleu.jobBegin_long (hl : 3 ≤ r.inLen) :
    r.jobBegin = { r.jobInit with
      pos := if r.header.isSome then 2 else 0
      rstate := if r.frameH = 0 then .compose else .run } := by
  have long : 2 < r.inLen := hl
  rw [Rleu.jobBegin_eq, if_neg (Nat.not_le.mpr long)]
  simp only [long, true_and]

/-- The header test skips the header of the one stream and finds none in the other (R127). -/
theorem Rleu.jobBegin_header (hl : 3 ≤ r.inLen)
    (hnone : ¬ (Memory.read r.inMem 0 = 0x00 ∧ Memory.read r.inMem 1 = 0x00))
    (h0 : Memory.read m 0 = 0x00) (h1 : Memory.read m 1 = 0x00) :
    Rleu.jobBegin { r with inMem := m, inLen := r.inLen + 2 } = r.jobBegin.behindHeader { r with inMem := m } := by
  have hl' : 3 ≤ r.inLen + 2 := Nat.le_add_right_of_le hl
  have hwithout : ¬ r.header.isSome = true := mt (Rleu.header_isSome_iff hl).mp hnone
  rw [Rleu.jobBegin_long hl', Rleu.jobBegin_long hl, if_neg hwithout,
    if_pos ((Rleu.header_isSome_iff hl').mpr ⟨h0, h1⟩)]
  rfl

/-- An error of the job start is none of those whose position a header moves (R236; C8). -/
theorem Rleu.jobError_withHeader {e : ErrCode}
    (he : e = .geometryOverflow ∨ e = .sizeMismatch ∨ e = .allocationFailure) (hm : m.TwoBytesBefore r.inMem) :
    (Rleu.jobError p r e).WithHeader (Rleu.jobError p { r with inMem := m, inLen := r.inLen + 2 } e) where
  inLen := rfl
  stream := hm
  pos h := by rcases h with h | h | h <;> cases h
  errPos _ h := by
    rcases he with rfl | rfl | rfl <;> rcases h with h | h <;> cases h
  rest := ⟨rfl, fun h => absurd rfl h⟩

/-- The job start goes the same way on the stream and on the stream after a header (R127). -/
theorem Rleu.jobStart_withHeader (p : Params) (hl : 3 ≤ r.inLen)
    (hnone : ¬ (Memory.read r.inMem 0 = 0x00 ∧ Memory.read r.inMem 1 = 0x00))
    (h0 : Memory.read m 0 = 0x00) (h1 : Memory.read m 1 = 0x00) (hm : m.TwoBytesBefore r.inMem) :
    (Rleu.jobStart p r).WithHeader (Rleu.jobStart p { r with inMem := m, inLen := r.inLen + 2 }) ∧
    ((Rleu.jobStart p r).rstate = .err →
      (Rleu.jobStart p { r with inMem := m, inLen := r.inLen + 2 }).errPos = (Rleu.jobStart p r).errPos) := by
  rcases Rleu.jobStart_alike (r := r) (r' := { r with inMem := m, inLen := r.inLen + 2 }) p rfl rfl rfl with
    ⟨e, he, hx, hx'⟩ | ⟨hx, hx'⟩ <;> rw [hx, hx']
  · exact ⟨Rleu.jobError_withHeader he hm, fun _ => rfl⟩
  · rw [Rleu.jobBegin_header hl hnone h0 h1]
    have live := r.jobBegin_rstate_ne_err
    refine ⟨Rleu.behindHeader_withHeader ?_ live, fun herr => absurd herr live⟩
    rw [Rleu.jobBegin_eq]
    exact hm

/-! #### The turns -/

theorem Memory.TwoBytesBefore.slice {m' : Memory} (hm : m.TwoBytesBefore m') (a n : Nat) :
    Memory.slice m (a + 2) n = Memory.slice m' a n := by
  induction n generalizing a with
  | zero => rfl
  | succ k ih => rw [Memory.slice, Memory.slice, hm, ← ih (a + 1), Nat.add_right_comm]

/-- The fetch finds the same token two bytes further (R129). -/
theorem Rleu.fetch_behindHeader (hm : q.inMem.TwoBytesBefore r.inMem) : (r.behindHeader q).fetch = r.fetch := by
  have hleft : r.inLen + 2 - (r.pos + 2) = r.inLen - r.pos := Nat.add_sub_add_right ..
  unfold Rleu.fetch Rleu.remaining Rleu.behindHeader
  dsimp only
  rw [hleft, hm.slice]

/-- The outcomes of `s` and of `s.behindHeader q` that go the same way: both leave RLEU the same but for the header, or
both raise the same error of a token. -/
inductive HeaderAnswer (s q : State) :
    Host.Outcome State Fault Refusal → Host.Outcome State Fault Refusal → Prop where
  | next (r : Rleu) (inMem : r.inMem = s.rleu.inMem) (live : r.rstate ≠ .err) :
      HeaderAnswer s q (.next (s.setRleu r)) (.next ((s.behindHeader q).setRleu (r.behindHeader q.rleu)))
  | error (e : ErrCode) : HeaderAnswer s q (tokenError s e) (tokenError (s.behindHeader q) e)

theorem HeaderAnswer.ite {q : State} {c c' : Prop} [Decidable c] [Decidable c']
    {o₁ o₂ o₁' o₂' : Host.Outcome State Fault Refusal} (hc : c' ↔ c) (h₁ : HeaderAnswer s q o₁ o₁')
    (h₂ : HeaderAnswer s q o₂ o₂') : HeaderAnswer s q (if c then o₁ else o₂) (if c' then o₁' else o₂') := by
  by_cases h : c
  · rwa [if_pos h, if_pos (hc.mpr h)]
  · rwa [if_neg h, if_neg (mt hc.mp h)]

/-- A token of `n` bytes ends beyond the stream exactly if it does so after a header. -/
theorem beyond_behindHeader (pos n len : Nat) : len + 2 < pos + 2 + n ↔ len < pos + n := by
  omega

/-- A token's meaning reads of POS and IN_LEN only how many bytes are left (R150 to R164). -/
theorem exec_token_headerAnswer {i : Instr} {q : State} (hi : i.isToken = true) (hrun : s.rleu.rstate = .run) :
    HeaderAnswer s q (exec i s) (exec i (s.behindHeader q)) := by
  have live : s.rleu.rstate ≠ .err := by rw [hrun]; nofun
  cases i with
  | hdr => cases hi
  | sample c => cases hi
  | eor =>
    show HeaderAnswer _ _ (execEor _) (execEor _)
    rw [execEor_eq, execEor_eq]
    refine .next _ rfl ?_
    dsimp only
    split
    · nofun
    · exact live
  | eoi => exact .next _ rfl nofun
  | trn => exact .next _ rfl live
  | repos dx dy => exact .ite (beyond_behindHeader ..) (.error _) (.next _ rfl live)
  | raw payload =>
    show HeaderAnswer _ _ (execRaw payload _) (execRaw payload _)
    have hpos : s.rleu.pos + 2 + rawLength payload.length = s.rleu.pos + rawLength payload.length + 2 :=
      Nat.add_right_comm ..
    rw [execRaw_eq, execRaw_eq]
    refine .ite (beyond_behindHeader ..) (.error _) (.ite Iff.rfl ?_ (.error _))
    simp only [State.behindHeader, Rleu.behindHeader, hpos]
    exact .next _ rfl live
  | lit n colour =>
    show HeaderAnswer _ _ (execLit n colour _) (execLit n colour _)
    rw [execLit_eq, execLit_eq]
    exact .ite Iff.rfl (.ite Iff.rfl (.next _ rfl live) (.ite Iff.rfl (.next _ rfl live) (.error _))) (.error _)

/-- RLEU's turn in RUN or COMPOSE goes the same way behind a header (R127). -/
theorem rleuTurn_headerAnswer {q : State} (hm : q.rleu.inMem.TwoBytesBefore s.rleu.inMem)
    (hs : s.rleu.rstate = .run ∨ s.rleu.rstate = .compose) :
    HeaderAnswer s q (rleuTurn s) (rleuTurn (s.behindHeader q)) := by
  rcases hs with hrun | hcompose
  · have hf : (s.behindHeader q).rleu.fetch = s.rleu.fetch := Rleu.fetch_behindHeader hm
    rw [rleuTurn_run hrun, rleuTurn_run (s := s.behindHeader q) hrun]
    unfold tokenStep
    rw [hf]
    cases hd : s.rleu.fetch with
    | token i rest => exact exec_token_headerAnswer (Rleu.fetch_token hd).2.1 hrun
    | exhausted => exact .next _ rfl nofun
    | truncated => exact .error _
  · rw [rleuTurn_compose hcompose, rleuTurn_compose (s := s.behindHeader q) hcompose]
    exact .next _ rfl nofun

/-- An error of a token has POS and ERR_POS 2 more behind a header (R236). -/
theorem Rleu.raise_withHeader (hm : q.inMem.TwoBytesBefore r.inMem) (e : ErrCode) (pos row col : Nat) :
    (Rleu.raise p r e pos row col).WithHeader (Rleu.raise p (r.behindHeader q) e (pos + 2) row col) where
  inLen := rfl
  stream := hm
  pos h := by rcases h with h | h | h <;> cases h
  errPos _ _ := ⟨rfl, rfl⟩
  rest := ⟨rfl, fun h => absurd rfl h⟩

/-- Answers that go the same way leave units that go the same way, an error having its position 2 more. -/
theorem HeaderAnswer.withHeader {q : State} {o o' : Host.Outcome State Fault Refusal} (h : HeaderAnswer s q o o')
    (hm : q.rleu.inMem.TwoBytesBefore s.rleu.inMem) :
    ∃ t t', o = .next t ∧ o' = .next t' ∧ t.rleu.WithHeader t'.rleu ∧
      (t.rleu.rstate = .err → t'.rleu.pos = t.rleu.pos + 2 ∧ t'.rleu.errPos = t.rleu.errPos + 2) := by
  cases h with
  | next r inMem live =>
    exact ⟨_, _, rfl, rfl, Rleu.behindHeader_withHeader (inMem ▸ hm) live, fun herr => absurd herr live⟩
  | error e => exact ⟨_, _, rfl, rfl, Rleu.raise_withHeader hm e .., fun _ => ⟨rfl, rfl⟩⟩

end Header

/-- Settles O34: the job start by its checks and the header test (`Rleu.jobStart_withHeader`), a turn in RUN or COMPOSE
by its answer behind a header (`rleuTurn_headerAnswer`); a unit at rest does nothing. -/
theorem headerMakesNoDifference : Obligations.HeaderMakesNoDifference := by
  refine ⟨fun p r m hl hnone h0 h1 hm => Rleu.jobStart_withHeader p hl hnone h0 h1 hm,
    fun s s' t t' hparams h ht ht' => ?_⟩
  by_cases hbusy : s.rleu.rstate = .run ∨ s.rleu.rstate = .compose
  · have hs' : s' = s.behindHeader s' := by rw [State.behindHeader, hparams, ← h.eq_behindHeader hbusy]
    have answer := rleuTurn_headerAnswer h.stream hbusy
    rw [← hs'] at answer
    obtain ⟨u, u', hu, hu', hwith, herror⟩ := answer.withHeader h.stream
    obtain rfl := Host.Outcome.next.inj (hu.symm.trans ht)
    obtain rfl := Host.Outcome.next.inj (hu'.symm.trans ht')
    exact ⟨hwith, fun _ => herror⟩
  · obtain ⟨hrun, hcompose⟩ := not_or.mp hbusy
    have hrstate : s'.rleu.rstate = s.rleu.rstate := (congrArg Rleu.rstate h.rest.registers :)
    obtain rfl := Host.Outcome.next.inj ((rleuTurn_resting hrun hcompose).symm.trans ht)
    obtain rfl := Host.Outcome.next.inj
      ((rleuTurn_resting (hrstate ▸ hrun) (hrstate ▸ hcompose)).symm.trans ht')
    exact ⟨h, fun hr => absurd hr hrun⟩

end Sys2Proof.Machine
end

section
/-! The tokens of the RLE stream (spec/41_rle_tokens.md): a token cut short, each token's effect with its frame, and
that a token which raises changes no working register. -/

namespace Sys2Proof.Machine

/-! ### A token cut short -/

theorem decode_repos_truncated {operands : List Byte} (h : operands.length < 2) :
    decode (0x00 :: 0x03 :: operands) = .truncated :=
  match operands, h with
  | [], _ => rfl
  | [_], _ => rfl

theorem decode_raw_truncated {k : Byte} {operands : List Byte} (h4 : 4 ≤ k.toNat)
    (h : operands.length < rawTail k.toNat) : decode (0x00 :: k :: operands) = .truncated := by
  simp only [decode, selectToken_raw h4, decodeRaw_eq, if_pos h]

/-- With two bytes left below IN_LEN, the fetch sees them and no more than IN_LEN leaves after them (R61, R129). -/
theorem Rleu.remaining_eq_cons_cons {r : Rleu} (h : r.pos + 1 < r.inLen) :
    ∃ operands, r.remaining = Memory.read r.inMem r.pos :: Memory.read r.inMem (r.pos + 1) :: operands ∧
      r.pos + 2 + operands.length ≤ r.inLen := by
  obtain ⟨n, hn⟩ : ∃ n, min (r.inLen - r.pos) maxTokenBytes = n + 2 :=
    Nat.exists_eq_add_of_le' (by unfold maxTokenBytes; omega)
  refine ⟨Memory.slice r.inMem (r.pos + 2) n, by rw [Rleu.remaining, hn]; rfl, ?_⟩
  rw [Memory.length_slice]
  omega

/-- Settles O11: the operands that are left are too few for REPOS or RAW, so the fetch decodes no token. -/
theorem missingOperandByteIsTruncated : Obligations.MissingOperandByteIsTruncated := by
  intro s hrun hpos hfirst hmissing
  obtain ⟨operands, hbytes, hlen⟩ := Rleu.remaining_eq_cons_cons hpos
  have hf : s.rleu.fetch = .truncated := by
    rw [Rleu.fetch, hbytes, hfirst]
    rcases hmissing with ⟨hsecond, hend⟩ | ⟨k, rfl, h4, hend⟩
    · rw [hsecond]
      exact decode_repos_truncated (by omega)
    · exact decode_raw_truncated h4 (by unfold rawTail; omega)
  rw [rleuTurn_truncated hrun hf]
  exact tokenError_raises s _

/-! ### The tokens that write no pixel -/

/-- Settles O13: the last-row test is made on the new ROW (`execEor_eq`). -/
theorem eorMovesToTheNextRow : Obligations.EorMovesToTheNextRow :=
  execEor_eq

/-- Settles O14: EOI is this update of RLEU. -/
theorem eoiEndsThePass : Obligations.EoiEndsThePass :=
  fun _ => rfl

/-- Settles O15: TRN is this update of RLEU, whatever the flag was. -/
theorem trnArmsTheFlag : Obligations.TrnArmsTheFlag :=
  fun _ => rfl

/-- The two answers of REPOS (R160). -/
theorem exec_repos_eq (dx dy : Byte) (s : State) :
    exec (.repos dx dy) s =
      if s.rleu.inLen < s.rleu.pos + 4 then tokenError s .truncatedStream
      else .next (s.setRleu { s.rleu with
        col := s.rleu.col + dx.toNat, row := s.rleu.row + dy.toNat, pos := s.rleu.pos + 4 }) := rfl

/-- Settles O16: the two answers of REPOS by its one test. -/
theorem reposMovesTheCursor : Obligations.ReposMovesTheCursor := by
  intro s dx dy
  rw [exec_repos_eq]
  refine ⟨fun hend => if_neg (Nat.not_lt.mpr hend), fun hend => ?_⟩
  rw [if_pos hend]
  exact tokenError_raises s _

/-! ### RAW -/

theorem exec_raw (payload : List Byte) (s : State) : exec (.raw payload) s = execRaw payload s := rfl

/-- A run of writes puts its byte `j` at `j` after its start (R162). -/
theorem read_writeBytes_inside (m : Memory) (i : Nat) {bytes : List Byte} {j : Nat} (h : j < bytes.length) :
    Memory.read (Memory.writeBytes m i bytes) (i + j) = bytes[j] := by
  rw [Memory.read_writeBytes, if_pos (Nat.le_add_right ..), Nat.add_sub_cancel_left, List.getElem?_eq_getElem h,
    Option.getD_some]

/-- Settles O17: RAW writes its payload as one run of bytes from the cursor's index (`execRaw_eq`). -/
theorem rawCopiesThePayload : Obligations.RawCopiesThePayload := by
  intro s payload hend hrow hcol
  have hk : rawLength payload.length = 2 + payload.length + payload.length % 2 := rawLength_eq payload
  rw [← hk] at hend ⊢
  refine ⟨Memory.writeBytes s.rleu.pix (pixIndex s.rleu.cw s.rleu.row s.rleu.col) payload, ?_,
    fun j hj => read_writeBytes_inside _ _ hj, fun a ha => read_writeBytes_outside ha⟩
  rw [exec_raw, execRaw_eq, if_neg (Nat.not_lt.mpr hend), if_pos (.inr ⟨hrow, hcol⟩)]

/-- Settles O18: the two errors of RAW in the order of its tests (`execRaw_eq`). -/
theorem rawErrors : Obligations.RawErrors := by
  intro s payload hne
  have hk : rawLength payload.length = 2 + payload.length + payload.length % 2 := rawLength_eq payload
  rw [← hk, exec_raw, execRaw_eq]
  refine ⟨fun hend => ?_, fun hend hout => ?_⟩
  · rw [if_pos hend]
    exact tokenError_raises s _
  · have hnot : ¬ (payload = [] ∨ (s.rleu.row < s.rleu.ch ∧ s.rleu.col + payload.length ≤ s.rleu.cw)) := by
      rintro (hnil | ⟨hrow, hcol⟩)
      · exact hne hnil
      · omega
    rw [if_neg (Nat.not_lt.mpr hend), if_neg hnot]
    exact tokenError_raises s _

/-! ### LIT -/

theorem exec_lit (n colour : Byte) (s : State) : exec (.lit n colour) s = execLit n colour s := rfl

/-- Settles O19: inside the canvas and under a clear flag LIT writes one run of `n` equal bytes (`execLit_eq`). -/
theorem litWritesTheRun : Obligations.LitWritesTheRun := by
  intro s n colour hclear hrow hcol
  refine ⟨_, ?_, read_writeBytes_replicate s.rleu.pix (pixIndex s.rleu.cw s.rleu.row s.rleu.col) n.toNat colour⟩
  rw [exec_lit, execLit_eq, if_pos (.inr ⟨hrow, hcol⟩), if_pos hclear]
  rfl

/-- Settles O20: the same run, and under a set flag with room in TRL the record of the new COL (`execLit_eq`). -/
theorem armedLitRecordsTheRun : Obligations.ArmedLitRecordsTheRun := by
  intro s n colour harmed hrow hcol hroom
  refine ⟨_, ?_, read_writeBytes_replicate s.rleu.pix (pixIndex s.rleu.cw s.rleu.row s.rleu.col) n.toNat colour⟩
  rw [exec_lit, execLit_eq, if_pos (.inr ⟨hrow, hcol⟩), if_neg (by rw [harmed]; decide), if_pos hroom]
  rfl

/-! ### A token that raises -/

/-- HDR and SAMPLE, the two instructions that are no tokens, leave RSTATE (R127, R207). -/
theorem exec_rstate_of_not_isToken {i : Instr} {s t : State} (hi : i.isToken = false) (h : exec i s = .next t) :
    t.rleu.rstate = s.rleu.rstate := by
  cases i with
  | hdr => exact Host.Outcome.next.inj h ▸ rfl
  | sample c => exact Host.Outcome.next.inj h ▸ rfl
  | _ => cases hi

/-- A token that completes leads to no error (R164). -/
theorem TokenDone.rstate_ne_err {p : Params} {i : Instr} {r t : Rleu} (h : TokenDone p i r t) (hr : r.rstate ≠ .err) :
    t.rstate ≠ .err := by
  rcases h.rstate_cases with hkept | ⟨hcompose, -⟩
  · rwa [hkept]
  · rw [hcompose]
    nofun

/-- Settles O23: only an error entry leads to ERR, and it keeps every register but those named (`tokenError_raises`). -/
theorem failingTokenChangesNoRegister : Obligations.FailingTokenChangesNoRegister := by
  intro i s t hs h ht
  by_cases hi : i.isToken = true
  · rcases exec_token_cases hi s with ⟨e, he, hraise⟩ | ⟨r, hr, hdone⟩
    · obtain ⟨u, hu, hraised⟩ := tokenError_raises s e
      obtain rfl := Host.Outcome.next.inj ((hraise.trans hu).symm.trans h)
      exact ⟨e, by rcases he with rfl | rfl | rfl <;> nofun, hraised⟩
    · obtain rfl := Host.Outcome.next.inj (hr.symm.trans h)
      exact absurd ht (hdone.rstate_ne_err hs)
  · exact absurd ((exec_rstate_of_not_isToken (Bool.eq_false_iff.mpr hi) h).symm.trans ht) hs

end Sys2Proof.Machine
end

section
/-! The composite step (spec/42_rle_composite.md): its three branches with what each gives PIX, and the byte mask of the
run list. -/

namespace Sys2Proof.Machine

/-! ### The pixels of a record -/

/-- A record covers the `len` indices from its first pixel on (R63, R187). -/
theorem TrlRecord.covers_iff (cw : Nat) (t : TrlRecord) (a : Nat) :
    TrlRecord.covers cw t a = true ↔ t.row * cw + t.col ≤ a ∧ a < t.row * cw + t.col + t.len := by
  rw [TrlRecord.covers, Bool.and_eq_true, decide_eq_true_iff, decide_eq_true_iff, pixIndex]

/-- A record that ends within its row covers pixels of that row only (R64, R187). -/
theorem TrlRecord.covers_pixIndex_iff {cw : Nat} {t : TrlRecord} {row col : Nat} (hend : t.col + t.len ≤ cw)
    (hcol : col < cw) :
    TrlRecord.covers cw t (pixIndex cw row col) = true ↔ t.row = row ∧ t.col ≤ col ∧ col < t.col + t.len := by
  rw [TrlRecord.covers_iff]
  constructor
  · rintro ⟨hfirst, hlast⟩
    obtain ⟨j, hj⟩ := Nat.exists_eq_add_of_le hfirst
    have hsame : pixIndex cw t.row (t.col + j) = pixIndex cw row col := by rw [hj, pixIndex, Nat.add_assoc]
    obtain ⟨hrow, hcols⟩ := pixIndex_inj (by omega) hcol hsame
    exact ⟨hrow, by omega⟩
  · rintro ⟨rfl, hfirst, hlast⟩
    rw [pixIndex]
    omega

/-- A record split in two abutting ones covers the same indices (R187). -/
theorem TrlRecord.covers_add_len (cw row col m n a : Nat) :
    TrlRecord.covers cw ⟨row, col, m + n⟩ a = true ↔
      TrlRecord.covers cw ⟨row, col, m⟩ a = true ∨ TrlRecord.covers cw ⟨row, col + m, n⟩ a = true := by
  simp only [TrlRecord.covers_iff]
  omega

/-- The mask is 0xFF at the indices that some record covers (R187). -/
theorem maskByte_eq (cw : Nat) (records : List TrlRecord) (a : Nat) :
    maskByte cw records a = if ∃ t ∈ records, TrlRecord.covers cw t a = true then 0xFF else 0x00 := by
  simp only [maskByte, List.any_eq_true]

/-! ### The three branches of the composite step -/

section Composite

variable {r : Rleu}

/-- Run compositing, if a run was recorded (R181, R182). -/
theorem Rleu.composedPix_runs (hkey : r.rctrl.keyPresent = true) (hcount : r.trlCount > 0) :
    r.composedPix = composeRuns r.keyMem r.pix r.cw r.trl := by
  rw [Rleu.composedPix, if_pos hkey, if_pos hcount]

/-- The fallback rule, if no run was recorded (R181, R183). -/
theorem Rleu.composedPix_background (hkey : r.rctrl.keyPresent = true) (hcount : r.trlCount = 0) :
    r.composedPix = composeBackground r.keyMem r.pix 0 (r.cw * r.ch) := by
  rw [Rleu.composedPix, if_pos hkey, if_neg (by omega)]

/-- Nothing, without a keyframe (R181, R185). -/
theorem Rleu.composedPix_noKeyframe (hkey : r.rctrl.keyPresent = false) : r.composedPix = r.pix := by
  rw [Rleu.composedPix, if_neg (Bool.eq_false_iff.mp hkey)]

end Composite

/-! ### The obligations -/

/-- Settles O35: an index lies in a record exactly if the record covers it (`read_composeRuns`). -/
theorem runCompositing : Obligations.RunCompositing := by
  intro s hcompose hkey hcount
  refine ⟨s.rleu.composedPix, rleuTurn_compose hcompose, fun a => ?_⟩
  rw [Rleu.composedPix_runs hkey hcount, read_composeRuns]
  simp only [List.any_eq_true, TrlRecord.covers_iff]
  refine ⟨fun hinside => if_pos hinside, fun houtside => if_neg ?_⟩
  rintro ⟨t, ht, hfirst, hlast⟩
  have := houtside t ht
  omega

/-- Settles O36: the fallback rule runs over the whole canvas from index 0 (`read_composeBackground`). -/
theorem backgroundFallback : Obligations.BackgroundFallback := by
  intro s hcompose hkey hcount
  refine ⟨s.rleu.composedPix, rleuTurn_compose hcompose, fun a => ?_⟩
  rw [Rleu.composedPix_background hkey hcount, read_composeBackground]
  simp only [Nat.zero_le, true_and, Nat.zero_add, bgIndex]

/-- Settles O37: without a keyframe the composed PIX is PIX itself. -/
theorem noKeyframeNoCompositing : Obligations.NoKeyframeNoCompositing := by
  intro s hcompose hkey
  rw [rleuTurn_compose hcompose, Rleu.composite, Rleu.composedPix_noKeyframe hkey]

/-- Settles O38: inside the canvas a covered index is a pixel of the record's own row, and abutting records cover what
their union covers. -/
theorem maskMarksTheRecords : Obligations.MaskMarksTheRecords := by
  refine ⟨fun r row col hrecords _ hcol => ?_, fun cw row col m n a => ?_⟩
  · rw [← pixIndex, maskByte_eq]
    refine if_congr (exists_congr fun t => and_congr_right fun ht => ?_) rfl rfl
    obtain ⟨-, -, -, hend⟩ := hrecords t ht
    exact TrlRecord.covers_pixIndex_iff hend hcol
  · simp only [maskByte_eq, List.exists_mem_cons_iff, List.not_mem_nil, false_and, exists_false, or_false,
      TrlRecord.covers_add_len]

end Sys2Proof.Machine
end

section
/-! ADPU (spec/43_adpcm.md): the job-start step, the turn in RUN, the arithmetic of SAMPLE, and a whole job as the unit
that its first `n` codes leave. -/

namespace Sys2Proof.Machine

/-! ### The job-start step -/

theorem Adpu.jobStart_allocationFailure {p : Params} {d : Adpu} (h : withinCap p.pcmCap (2 * d.ainLen) = false) :
    Adpu.jobStart p d = Adpu.raise p d .allocationFailure :=
  if_pos (by rw [h]; rfl)

theorem Adpu.jobStart_begin {p : Params} {d : Adpu} (h : withinCap p.pcmCap (2 * d.ainLen) = true) :
    Adpu.jobStart p d = { d with
      aerrCode := .none, predictor := 0, stepIndex := 0, apos := 0, nib := false, outCount := 0, astate := .run } :=
  if_neg (by rw [h]; exact Bool.false_ne_true)

/-- ADP_START at rest with AIN_LEN written is the job-start step (R200, R265). -/
theorem adpStart_starts {s : State} (ha : s.adpu.accepts = true) (hw : s.adpu.ainLenWritten = true) :
    adpStart s = .next (s.setAdpu (Adpu.jobStart s.params s.adpu)) := by
  unfold adpStart
  rw [ha, hw]
  rfl

/-- Settles O26: the one check of the job-start step, in numbers (`withinCap_eq_false_iff`). -/
theorem adpuJobStart : Obligations.AdpuJobStart := by
  intro s hrest hwritten
  have hstart : hostMove .adpStart s = .next (s.setAdpu (Adpu.jobStart s.params s.adpu)) :=
    adpStart_starts (s.adpu.accepts_iff.mpr hrest) hwritten
  have hroom := withinCap_eq_false_iff s.params.pcmCap (2 * s.adpu.ainLen)
  refine ⟨fun hfull => ⟨_, hstart, ?_⟩, fun hfits => ?_⟩
  · rw [Adpu.jobStart_allocationFailure (hroom.mpr hfull)]
    rfl
  · have hnot : ¬ withinCap s.params.pcmCap (2 * s.adpu.ainLen) = false := fun hfull => by
      obtain ⟨c, hcap, hlt⟩ := hroom.mp hfull
      exact Nat.not_le.mpr hlt (hfits c hcap)
    rw [hstart, Adpu.jobStart_begin (Bool.eq_true_of_not_eq_false hnot)]

/-! ### The turn in RUN -/

/-- The code that APOS and NIB select (R203). -/
def Adpu.code (d : Adpu) : Code :=
  decodeCode (Memory.read d.ain d.apos) d.nib

/-- With a byte left the selected code is decoded (R202, R203). -/
theorem adpuTurn_code {s : State} (hrun : s.adpu.astate = .run) (hleft : s.adpu.apos < s.adpu.ainLen) :
    adpuTurn s = exec (.sample s.adpu.code) s :=
  adpuTurn_sample hrun hleft

/-- Settles O7: the turn in RUN executes the fetched code, whichever event gives ADPU the turn. -/
theorem stepRunsTheFetchedCode : Obligations.StepRunsTheFetchedCode := by
  intro s events hrun hleft
  exact ⟨fun hp => (step_pending_adpu hp).trans (adpuTurn_code (s := s.setPending events) hrun hleft),
    fun hp hrest hrest' => (step_idle_adpu hp hrest hrest').trans (adpuTurn_code hrun hleft)⟩

/-- Settles O57: the finishing step is this update of ADPU. -/
theorem adpuFinishesWhenAllIsConsumed : Obligations.AdpuFinishesWhenAllIsConsumed :=
  fun _ => adpuTurn_finish

/-! ### The arithmetic of SAMPLE -/

/-- Clamping is a maximum of a minimum (R14). -/
theorem clamp_eq_max_min {v lo hi : Int} (h : lo ≤ hi) : clamp v lo hi = max lo (min hi v) := by
  unfold clamp
  split
  · omega
  · split <;> omega

/-- `k = c[2:0]` in numbers (R105). -/
theorem codeMagnitude_eq (c : Code) : codeMagnitude c = c.toNat % 8 := by
  rw [codeMagnitude, BitVec.extractLsb'_toNat]
  rfl

/-- `s = c[3]` in numbers (R105). -/
theorem codeSign_iff (c : Code) : codeSign c = true ↔ 8 ≤ c.toNat := by
  revert c
  decide

/-- The shift by 3 is a division by 8 (R208). -/
theorem magnitude_eq (k step : Nat) : magnitude k step = (2 * k + 1) * step / 8 :=
  Nat.shiftRight_eq_div_pow ..

/-- The signed difference in numbers (R208, R209). -/
theorem difference_eq (c : Code) (step : Nat) :
    difference c step =
      if 8 ≤ c.toNat then -(((2 * (c.toNat % 8) + 1) * step / 8 : Nat) : Int)
      else (((2 * (c.toNat % 8) + 1) * step / 8 : Nat) : Int) := by
  rw [difference, codeMagnitude_eq, magnitude_eq]
  exact if_congr (codeSign_iff c) rfl rfl

/-- Saturation to 16 bits (R210). -/
theorem nextPredictor_eq (predictor : Int) (c : Code) (step : Nat) :
    nextPredictor predictor c step = max (-32768) (min 32767 (predictor + difference c step)) :=
  clamp_eq_max_min (by decide)

/-- The code pointer moves on by one nibble: APOS after the low one (R212). -/
theorem Adpu.advance_eq (d : Adpu) : d.advance = { d with apos := d.apos + d.nib.toNat, nib := !d.nib } := by
  unfold Adpu.advance
  cases d.nib with
  | false => rfl
  | true => rfl

/-- Settles O24: each step of SAMPLE in numbers, and a sample written is read back (`read16_write16`). -/
theorem sampleDecodesOneCode : Obligations.SampleDecodesOneCode := by
  intro s c k m d predictor
  have hpredictor : nextPredictor s.adpu.predictor c (stepSize s.adpu.stepIndex) = predictor := by
    rw [nextPredictor_eq, difference_eq]
    rfl
  refine ⟨writeSample s.adpu.pcm s.adpu.outCount predictor, nextStepIndex s.adpu.stepIndex c, ?_, ?_, fun j => ?_⟩
  · rw [exec_sample_eq, Adpu.afterSample, Adpu.advance_eq, hpredictor]
  · rw [nextStepIndex_val, clamp_eq_max_min (by decide), codeMagnitude_eq]
    rfl
  · exact read16_write16 ..

/-! ### The codes of a job -/

/-- ADPU after `n` SAMPLE steps, each on the code that the one before has left selected (R202, R203). -/
def Adpu.afterCodes (d : Adpu) (n : Nat) : Adpu :=
  match n with
  | 0 => d
  | k + 1 => Adpu.afterCodes (d.afterSample d.code) k

/-- The number of codes before the one that APOS and NIB select (R203). -/
def Adpu.codePosition (d : Adpu) : Nat :=
  2 * d.apos + d.nib.toNat

/-- A code is left exactly while a byte is left (R202). -/
theorem Adpu.codePosition_lt_iff (d : Adpu) : d.codePosition < 2 * d.ainLen ↔ d.apos < d.ainLen := by
  have hnib : d.nib.toNat ≤ 1 := Bool.toNat_le d.nib
  unfold Adpu.codePosition
  omega

/-- The code pointer moves on by one code (R212). -/
theorem Adpu.codePosition_afterSample (d : Adpu) (c : Code) :
    (d.afterSample c).codePosition = d.codePosition + 1 := by
  rw [Adpu.afterSample, Adpu.advance_eq]
  show 2 * (d.apos + d.nib.toNat) + (!d.nib).toNat = 2 * d.apos + d.nib.toNat + 1
  cases d.nib with
  | false => rfl
  | true => rfl

/-- What SAMPLE steps leave of the unit: they count samples and codes, stay in RUN, and read AIN only (R202, R212). -/
structure Adpu.CodesDone (d : Adpu) (n : Nat) (t : Adpu) : Prop where
  astate : t.astate = d.astate
  ainLen : t.ainLen = d.ainLen
  ain : t.ain = d.ain
  outCount : t.outCount = d.outCount + n
  codePosition : t.codePosition = d.codePosition + n

theorem Adpu.afterCodes_done (d : Adpu) (n : Nat) : d.CodesDone n (d.afterCodes n) := by
  induction n generalizing d with
  | zero => exact ⟨rfl, rfl, rfl, rfl, rfl⟩
  | succ n ih =>
    obtain ⟨hastate, hlen, hain, hcount, hposition⟩ := ih (d.afterSample d.code)
    refine ⟨hastate, hlen, hain, hcount.trans (Nat.add_right_comm ..), ?_⟩
    rw [Adpu.afterCodes, hposition, Adpu.codePosition_afterSample, Nat.add_right_comm, Nat.add_assoc]

/-- As long as codes are left, each turn in RUN decodes one of them (R202). -/
theorem turns_afterCodes {s : State} {n : Nat} (hrun : s.adpu.astate = .run)
    (hleft : s.adpu.codePosition + n ≤ 2 * s.adpu.ainLen) (k : Nat) :
    turns adpuTurn (k + n) s = turns adpuTurn k (s.setAdpu (s.adpu.afterCodes n)) := by
  induction n generalizing s with
  | zero => rfl
  | succ n ih =>
    have hcode : s.adpu.apos < s.adpu.ainLen := s.adpu.codePosition_lt_iff.mp (by omega)
    have hturn : adpuTurn s = .next (s.setAdpu (s.adpu.afterSample s.adpu.code)) := adpuTurn_code hrun hcode
    refine (turns_succ hturn (k + n)).trans (ih hrun ?_)
    rw [State.setAdpu_adpu, Adpu.codePosition_afterSample]
    exact (Nat.add_right_comm ..).trans_le hleft

/-- What `n` turns lead to while codes are left. -/
theorem eq_afterCodes_of_turns {s t : State} {n : Nat} (hrun : s.adpu.astate = .run)
    (hleft : s.adpu.codePosition + n ≤ 2 * s.adpu.ainLen) (h : turns adpuTurn n s = .next t) :
    t = s.setAdpu (s.adpu.afterCodes n) := by
  rw [← Nat.zero_add n, turns_afterCodes hrun hleft] at h
  exact (Host.Outcome.next.inj h).symm

/-! ### The length of a job -/

/-- The first code of a job is its high nibble at APOS 0 (R201, R203). -/
theorem Adpu.codePosition_first {d : Adpu} (hpos : d.apos = 0) (hnib : d.nib = false) : d.codePosition = 0 := by
  rw [Adpu.codePosition, hpos, hnib]
  rfl

/-- Once all codes are decoded, the code pointer stands after the last byte (R202). -/
theorem Adpu.consumed_of_codePosition {d : Adpu} {n : Nat} (h : d.codePosition = 2 * n) :
    d.apos = n ∧ d.nib = false := by
  unfold Adpu.codePosition at h
  cases hnib : d.nib with
  | false => exact ⟨by rw [hnib, Bool.toNat_false] at h; omega, rfl⟩
  | true =>
    rw [hnib, Bool.toNat_true] at h
    omega

/-- Settles O27: the turns decode the codes one by one (`turns_afterCodes`), and after the last one finds every byte
consumed. -/
theorem adpuJobGivesTwoSamplesPerByte : Obligations.AdpuJobGivesTwoSamplesPerByte := by
  intro s hrun hpos hnib hcount
  have hfirst := Adpu.codePosition_first hpos hnib
  refine ⟨fun n t hn ht => ?_, ?_⟩
  · obtain rfl := eq_afterCodes_of_turns hrun (by omega) ht
    have done := s.adpu.afterCodes_done n
    exact ⟨done.astate.trans hrun, by rw [State.setAdpu_adpu, done.outCount, hcount, Nat.zero_add],
      done.codePosition.trans (by rw [hfirst, Nat.zero_add])⟩
  · obtain ⟨hastate, hlen, hain, houtCount, hposition⟩ := s.adpu.afterCodes_done (2 * s.adpu.ainLen)
    rw [hfirst, Nat.zero_add] at hposition
    rw [hcount, Nat.zero_add] at houtCount
    obtain ⟨hapos, hnib⟩ := Adpu.consumed_of_codePosition hposition
    refine ⟨s.setAdpu (s.adpu.afterCodes (2 * s.adpu.ainLen)).finish, ?_, rfl, houtCount, hapos, hnib, hlen, hain⟩
    rw [Nat.add_comm, turns_afterCodes hrun (by omega)]
    exact turns_succ (adpuTurn_finish (hastate.trans hrun) (hlen.trans hapos.symm).le) 0

/-! ### A stream of zero nibbles -/

/-- ADPU in the state `(0, 0)`, on a stream of zero nibbles, with only samples of 0 given (R201, R216 (b)). -/
structure Adpu.Silent (d : Adpu) : Prop where
  predictor : d.predictor = 0
  stepIndex : d.stepIndex = 0
  stream : ∀ a, a < d.ainLen → Memory.read d.ain a = 0x00
  samples : ∀ i, i < d.outCount → Memory.read16 d.pcm i = 0

/-- At the first step size, 7, the magnitude of the code 0 is truncated to 0 (R205, R208). -/
theorem nextPredictor_zero : nextPredictor 0 0 (stepSize 0) = 0 := by
  decide

/-- The delta -1 of the code 0 is clamped at 0 (R206, R211). -/
theorem nextStepIndex_zero : nextStepIndex 0 0 = 0 := by
  decide

/-- Both nibbles of a zero byte are the code 0 (R203). -/
theorem decodeCode_zero (nib : Bool) : decodeCode 0x00 nib = 0 := by
  revert nib
  decide

/-- One SAMPLE adds one sample of 0 (R216 (b)). -/
theorem Adpu.Silent.afterSample {d : Adpu} (h : d.Silent) (hleft : d.apos < d.ainLen) :
    (d.afterSample d.code).Silent := by
  have hcode : d.code = 0 := by rw [Adpu.code, h.stream _ hleft, decodeCode_zero]
  have hpredictor : nextPredictor d.predictor d.code (stepSize d.stepIndex) = 0 := by
    rw [h.predictor, hcode, h.stepIndex, nextPredictor_zero]
  have hindex : nextStepIndex d.stepIndex d.code = 0 := by
    rw [h.stepIndex, hcode, nextStepIndex_zero]
  rw [Adpu.afterSample, hpredictor, hindex]
  refine ⟨rfl, rfl, h.stream, fun i hi => ?_⟩
  rw [writeSample, read16_write16]
  split
  · rfl
  next hne => exact h.samples i (Nat.lt_of_le_of_ne (Nat.le_of_lt_succ hi) hne)

/-- So do any number of codes (R216 (b)). -/
theorem Adpu.Silent.afterCodes {d : Adpu} {n : Nat} (h : d.Silent) (hleft : d.codePosition + n ≤ 2 * d.ainLen) :
    (d.afterCodes n).Silent := by
  induction n generalizing d with
  | zero => exact h
  | succ n ih =>
    refine ih (h.afterSample (d.codePosition_lt_iff.mp (by omega))) ?_
    rw [Adpu.codePosition_afterSample]
    exact (Nat.add_right_comm ..).trans_le hleft

/-- Settles O28: every code of the job keeps the silence that it starts from (`Adpu.Silent.afterCodes`). -/
theorem zeroNibblesGiveSilence : Obligations.ZeroNibblesGiveSilence := by
  intro s hrun hpos hnib hcount hpredictor hindex hstream n t hn ht
  have hleft : s.adpu.codePosition + n ≤ 2 * s.adpu.ainLen := by
    rwa [Adpu.codePosition_first hpos hnib, Nat.zero_add]
  obtain rfl := eq_afterCodes_of_turns hrun hleft ht
  have hstart : s.adpu.Silent := ⟨hpredictor, hindex, hstream, fun i hi => absurd (hcount ▸ hi) (Nat.not_lt_zero i)⟩
  have silent := hstart.afterCodes hleft
  have houtCount : (s.adpu.afterCodes n).outCount = n := by
    rw [(s.adpu.afterCodes_done n).outCount, hcount, Nat.zero_add]
  exact ⟨silent.predictor, silent.stepIndex, houtCount, fun i hi => silent.samples i (houtCount.symm ▸ hi)⟩

end Sys2Proof.Machine
end

section
/-! RESET and hazards (spec/70_reset_and_hazards.md): the registers with a reset value, and that a job of either unit
depends on its inputs only, whatever earlier jobs left in the unit. -/

namespace Sys2Proof.Machine

/-! ### RESET -/

/-- Settles O39: both the first state and the state after a RESET event are built from the units' reset records. -/
theorem resetSetsTheRegisters : Obligations.ResetSetsTheRegisters := by
  refine ⟨fun s => ⟨_, rfl⟩, fun s t h => ?_⟩
  obtain rfl | rfl := h.imp_right fun hreset => (Host.Outcome.next.inj hreset).symm
  all_goals exact ⟨rfl, rfl, rfl, rfl, rfl, rfl, rfl, rfl, rfl, rfl⟩

/-! ### What an earlier job leaves in RLEU -/

/-- RLEU `r`, but for what a job never reads before it writes it, which is that of `q`: the marks of written registers,
the error context, the remembered position, PIX and the draw counter. -/
def Rleu.withLeftovers (r q : Rleu) : Rleu :=
  { r with
    written := q.written, errPos := q.errPos, errRow := q.errRow, errCol := q.errCol, tRow := q.tRow, tCol := q.tCol,
    pix := q.pix, draws := q.draws }

/-- MSDEC with the leftovers of `q` in RLEU, and the rest of `q` beside it. -/
def State.withLeftovers (s q : State) : State :=
  ⟨s.params, s.rleu.withLeftovers q.rleu, q.adpu, q.pending⟩

section SameJob

variable {p : Params} {r r' : Rleu} {s q : State} {m m' : Memory} {a : Nat}

theorem Rleu.sameInputs_withLeftovers (r q : Rleu) : r.SameInputs (r.withLeftovers q) :=
  ⟨rfl, rfl, rfl, rfl, rfl, rfl, rfl, rfl, rfl, rfl, rfl⟩

/-- Outside ERR two units are at the same point of the same job exactly if they differ in leftovers only, the remembered
position of an armed flag and the pixels of the canvas apart (R38, R41, R263). -/
theorem Rleu.sameJob_iff (live : r.rstate ≠ .err) :
    r.SameJob r' ↔ r' = r.withLeftovers r' ∧ (r.tArmed = true → r.tRow = r'.tRow ∧ r.tCol = r'.tCol) ∧
      ∀ a, a < r.cw * r.ch → Memory.read r.pix a = Memory.read r'.pix a := by
  refine ⟨fun h => ⟨?_, h.remembered live, h.pix live⟩, fun ⟨heq, hremembered, hpix⟩ => ?_⟩
  · obtain ⟨⟨_, _, _, _, _, _, _, _, _, _, _⟩, _, _, -, hcanvas, hcursor, harmed, -, htrl, -⟩ := h
    obtain ⟨_, _⟩ := hcanvas live
    obtain ⟨_, _, _⟩ := hcursor live
    have harmed := harmed live
    have htrl := htrl live
    cases r
    cases r'
    simp_all [Rleu.withLeftovers]
  · obtain ⟨q, rfl⟩ : ∃ q, r' = r.withLeftovers q := ⟨r', heq⟩
    exact {
      inputs := r.sameInputs_withLeftovers q
      rstate := rfl
      errCode := rfl
      context := fun herr => absurd herr live
      canvas := fun _ => ⟨rfl, rfl⟩
      cursor := fun _ => ⟨rfl, rfl, rfl⟩
      armed := fun _ => rfl
      remembered := fun _ => hremembered
      trl := fun _ => rfl
      pix := fun _ => hpix }

/-- An error with the same context is the same point of the same job: the outputs do not count in ERR (R236, R237). -/
theorem Rleu.SameInputs.raise (h : r.SameInputs r') (e : ErrCode) (pos row col : Nat) :
    (Rleu.raise p r e pos row col).SameJob (Rleu.raise p r' e pos row col) where
  inputs := ⟨h.frameW, h.frameH, h.canvasW, h.canvasH, h.frameX, h.frameY, h.inLen, h.keyLen, h.rctrl, h.inMem,
    h.keyMem⟩
  rstate := rfl
  errCode := rfl
  context _ := ⟨rfl, rfl, rfl⟩
  canvas live := absurd rfl live
  cursor live := absurd rfl live
  armed live := absurd rfl live
  remembered live := absurd rfl live
  trl live := absurd rfl live
  pix live := absurd rfl live

/-! ### The job start of RLEU -/

/-- RLEU `r` with the parameter registers and the input memories of `q`. -/
def Rleu.onInputs (r q : Rleu) : Rleu :=
  { r with
    frameW := q.frameW, frameH := q.frameH, canvasW := q.canvasW, canvasH := q.canvasH, frameX := q.frameX,
    frameY := q.frameY, inLen := q.inLen, keyLen := q.keyLen, rctrl := q.rctrl, inMem := q.inMem, keyMem := q.keyMem }

theorem Rleu.sameInputs_onInputs (r q : Rleu) : r.SameInputs (q.onInputs r) :=
  ⟨rfl, rfl, rfl, rfl, rfl, rfl, rfl, rfl, rfl, rfl, rfl⟩

theorem Rleu.SameInputs.eq_onInputs (h : r.SameInputs r') : r' = r'.onInputs r := by
  obtain ⟨_, _, _, _, _, _, _, _, _, _, _⟩ := h
  cases r
  cases r'
  simp_all [Rleu.onInputs]

/-- The initialisation clears every pixel of the canvas (R63, R124). -/
theorem Rleu.read_jobBegin_pix (r : Rleu) (ha : a < r.jobBegin.cw * r.jobBegin.ch) :
    Memory.read r.jobBegin.pix a = 0x00 := by
  rw [Rleu.jobBegin_eq] at ha ⊢
  exact (Memory.read_zeroBelow ..).trans (if_pos ha)

/-- A job that begins writes every register that it reads later (R33, R124). -/
theorem Rleu.jobBegin_sameJob (r q : Rleu) : r.jobBegin.SameJob (q.onInputs r).jobBegin := by
  refine (Rleu.sameJob_iff r.jobBegin_rstate_ne_err).mpr ⟨?_, fun harmed => ?_, fun a ha => ?_⟩
  · rw [Rleu.jobBegin_eq, Rleu.jobBegin_eq]
    rfl
  · rw [Rleu.jobBegin_eq] at harmed
    cases harmed
  · have ha' : a < (q.onInputs r).jobBegin.cw * (q.onInputs r).jobBegin.ch := by
      rw [Rleu.jobBegin_eq] at ha ⊢
      exact ha
    rw [r.read_jobBegin_pix ha, Rleu.read_jobBegin_pix _ ha']

/-- The checks and the initialisation read the parameters and the input memories only (R121 to R128). -/
theorem Rleu.SameInputs.jobStart (h : r.SameInputs r') : (Rleu.jobStart p r).SameJob (Rleu.jobStart p r') := by
  rw [h.eq_onInputs]
  rcases Rleu.jobStart_alike (r := r) (r' := r'.onInputs r) p rfl rfl rfl with ⟨e, -, hx, hx'⟩ | ⟨hx, hx'⟩ <;>
    rw [hx, hx']
  · exact (r.sameInputs_onInputs r').raise e ..
  · exact r.jobBegin_sameJob r'

/-! ### The turns of RLEU -/

/-- The outcomes of two steps that both complete and leave RLEU at the same point of the same job. -/
inductive SameJobAfter : Host.Outcome State Fault Refusal → Host.Outcome State Fault Refusal → Prop where
  | next {t t' : State} (same : t.rleu.SameJob t'.rleu) : SameJobAfter (.next t) (.next t')

/-- A step leaves the same job if the two units then differ in leftovers only (`Rleu.sameJob_iff`). -/
theorem SameJobAfter.of_leftovers {t t' : State} (differ : t'.rleu = t.rleu.withLeftovers t'.rleu)
    (live : t.rleu.rstate ≠ .err)
    (remembered : t.rleu.tArmed = true → t.rleu.tRow = t'.rleu.tRow ∧ t.rleu.tCol = t'.rleu.tCol)
    (pix : ∀ a, a < t.rleu.cw * t.rleu.ch → Memory.read t.rleu.pix a = Memory.read t'.rleu.pix a) :
    SameJobAfter (.next t) (.next t') :=
  .next ((Rleu.sameJob_iff live).mpr ⟨differ, remembered, pix⟩)

theorem SameJobAfter.ite {c : Prop} [Decidable c] {o₁ o₂ o₁' o₂' : Host.Outcome State Fault Refusal}
    (h₁ : c → SameJobAfter o₁ o₁') (h₂ : ¬ c → SameJobAfter o₂ o₂') :
    SameJobAfter (if c then o₁ else o₂) (if c then o₁' else o₂') := by
  split
  next hc => exact h₁ hc
  next hc => exact h₂ hc

/-- A run of writes gives each byte the same value in two memories that had the same there. -/
theorem Memory.read_writeBytes_congr (h : Memory.read m a = Memory.read m' a) (i : Nat) (bytes : List Byte) :
    Memory.read (Memory.writeBytes m i bytes) a = Memory.read (Memory.writeBytes m' i bytes) a := by
  rw [Memory.read_writeBytes, Memory.read_writeBytes, h]

/-- The composite step decides a pixel by its own value, KEY and the records (R181 to R185). -/
theorem Rleu.read_composedPix_congr (h : Memory.read r.pix a = Memory.read m a) :
    Memory.read r.composedPix a = Memory.read (Rleu.composedPix { r with pix := m }) a := by
  cases hkey : r.rctrl.keyPresent
  · rw [Rleu.composedPix_noKeyframe hkey, Rleu.composedPix_noKeyframe (r := { r with pix := m }) hkey]
    exact h
  rcases Nat.eq_zero_or_pos r.trlCount with hcount | hcount
  · rw [Rleu.composedPix_background hkey hcount,
      Rleu.composedPix_background (r := { r with pix := m }) hkey hcount, read_composeBackground,
      read_composeBackground, h]
    rfl
  · rw [Rleu.composedPix_runs hkey hcount, Rleu.composedPix_runs (r := { r with pix := m }) hkey hcount,
      read_composeRuns, read_composeRuns, h]
    rfl

/-- An error of a token has the same context whatever the leftovers (R129, R236). -/
theorem tokenError_sameJob (s q : State) (e : ErrCode) :
    SameJobAfter (tokenError s e) (tokenError (s.withLeftovers q) e) :=
  .next ((s.rleu.sameInputs_withLeftovers q.rleu).raise e ..)

/-- A token reads of the leftovers the remembered position only, and that under an armed flag only (R150 to R164). -/
theorem exec_token_sameJob {i : Instr} (hi : i.isToken = true) (hrun : s.rleu.rstate = .run)
    (h : s.rleu.SameJob q.rleu) : SameJobAfter (exec i s) (exec i (s.withLeftovers q)) := by
  have live : s.rleu.rstate ≠ .err := by rw [hrun]; nofun
  have remembered := h.remembered live
  have pix := h.pix live
  cases i with
  | hdr => cases hi
  | sample c => cases hi
  | eor =>
    show SameJobAfter (execEor _) (execEor _)
    rw [execEor_eq, execEor_eq]
    refine .of_leftovers rfl ?_ nofun pix
    dsimp only [State.setRleu_rleu]
    split
    · nofun
    · exact live
  | eoi => exact .of_leftovers rfl nofun nofun pix
  | trn => exact .of_leftovers rfl live (fun _ => ⟨rfl, rfl⟩) pix
  | repos dx dy =>
    exact .ite (fun _ => tokenError_sameJob ..) fun _ => .of_leftovers rfl live remembered pix
  | raw payload =>
    show SameJobAfter (execRaw payload _) (execRaw payload _)
    rw [execRaw_eq, execRaw_eq]
    exact .ite (fun _ => tokenError_sameJob ..) fun _ => .ite
      (fun _ => .of_leftovers rfl live remembered fun a ha => Memory.read_writeBytes_congr (pix a ha) ..)
      fun _ => tokenError_sameJob ..
  | lit n colour =>
    show SameJobAfter (execLit n colour _) (execLit n colour _)
    rw [execLit_eq, execLit_eq]
    refine .ite (fun _ => .ite (fun _ => ?_) fun harmed => .ite (fun _ => ?_) fun _ => tokenError_sameJob ..)
      fun _ => tokenError_sameJob ..
    · exact .of_leftovers rfl live remembered fun a ha => Memory.read_writeBytes_congr (pix a ha) ..
    · obtain ⟨hrow, hcol⟩ := remembered (Bool.eq_true_of_not_eq_false harmed)
      simp only [State.withLeftovers, Rleu.withLeftovers, ← hrow, ← hcol]
      exact .of_leftovers rfl live nofun fun a ha => Memory.read_writeBytes_congr (pix a ha) ..

/-- RLEU's turn in RUN or COMPOSE goes the same way whatever the leftovers (R129, R180, R263). -/
theorem rleuTurn_sameJob (h : s.rleu.SameJob q.rleu) (hs : s.rleu.rstate = .run ∨ s.rleu.rstate = .compose) :
    SameJobAfter (rleuTurn s) (rleuTurn (s.withLeftovers q)) := by
  have live : s.rleu.rstate ≠ .err := fun herr => by simp [herr] at hs
  rcases hs with hrun | hcompose
  · have hf : (s.withLeftovers q).rleu.fetch = s.rleu.fetch := rfl
    rw [rleuTurn_run hrun, rleuTurn_run (s := s.withLeftovers q) hrun]
    unfold tokenStep
    rw [hf]
    cases hd : s.rleu.fetch with
    | token i rest => exact exec_token_sameJob (Rleu.fetch_token hd).2.1 hrun h
    | exhausted => exact .of_leftovers rfl nofun nofun (h.pix live)
    | truncated => exact tokenError_sameJob ..
  · rw [rleuTurn_compose hcompose, rleuTurn_compose (s := s.withLeftovers q) hcompose]
    exact .of_leftovers rfl nofun (h.remembered live) fun a ha => Rleu.read_composedPix_congr (h.pix live a ha)

/-- Every turn of RLEU keeps two units at the same point of the same job; a unit at rest stays where it is (R240). -/
theorem rleuTurn_keeps_sameJob (hparams : s.params = q.params) (h : s.rleu.SameJob q.rleu) :
    SameJobAfter (rleuTurn s) (rleuTurn q) := by
  by_cases hbusy : s.rleu.rstate = .run ∨ s.rleu.rstate = .compose
  · have live : s.rleu.rstate ≠ .err := fun herr => by simp [herr] at hbusy
    have hq : q = s.withLeftovers q := by
      rw [State.withLeftovers, hparams, ← ((Rleu.sameJob_iff live).mp h).1]
    have key := rleuTurn_sameJob h hbusy
    rwa [← hq] at key
  · obtain ⟨hrun, hcompose⟩ := not_or.mp hbusy
    rw [rleuTurn_resting hrun hcompose, rleuTurn_resting (h.rstate ▸ hrun) (h.rstate ▸ hcompose)]
    exact .next h

end SameJob

/-! ### ADPU -/

section SameCodes

variable {p : Params} {d d' : Adpu} {s s' t t' : State}

/-- The job-start step checks AIN_LEN and writes every working register (R47, R200, R201). -/
theorem Adpu.jobStart_sameJob (hlen : d.ainLen = d'.ainLen) (hain : d.ain = d'.ain) :
    (Adpu.jobStart p d).SameJob (Adpu.jobStart p d') := by
  cases hfits : withinCap p.pcmCap (2 * d.ainLen)
  · rw [Adpu.jobStart_allocationFailure hfits, Adpu.jobStart_allocationFailure (hlen ▸ hfits)]
    exact ⟨hlen, hain, rfl, rfl, fun live => absurd rfl live, fun live => absurd rfl live,
      fun live => absurd rfl live, fun live => absurd rfl live⟩
  · rw [Adpu.jobStart_begin hfits, Adpu.jobStart_begin (hlen ▸ hfits)]
    exact ⟨hlen, hain, rfl, rfl, fun _ => ⟨rfl, rfl⟩, fun _ => ⟨rfl, rfl⟩, fun _ => rfl,
      fun _ j hj => absurd hj (Nat.not_lt_zero j)⟩

/-- The same code takes the same job on: SAMPLE reads the working registers and writes one sample (R207 to R212). -/
theorem Adpu.SameJob.afterSample (h : d.SameJob d') (hrun : d.astate = .run) (c : Code) :
    (d.afterSample c).SameJob (d'.afterSample c) := by
  have live : d.astate ≠ .err := by rw [hrun]; nofun
  obtain ⟨hpredictor, hindex⟩ := h.state live
  obtain ⟨hapos, hnib⟩ := h.position live
  have hcount := h.outCount live
  exact {
    ainLen := h.ainLen
    ain := h.ain
    astate := h.astate
    aerrCode := h.aerrCode
    state := fun _ => by simp only [Adpu.afterSample, hpredictor, hindex, and_self]
    position := fun _ => by simp only [Adpu.afterSample, Adpu.advance, hapos, hnib, and_self]
    outCount := fun _ => congrArg (· + 1) hcount
    pcm := fun _ j hj => by
      simp only [Adpu.afterSample, writeSample, read16_write16, hpredictor, hindex, ← hcount]
      split
      · rfl
      next hne => exact h.pcm live j (Nat.lt_of_le_of_ne (Nat.le_of_lt_succ hj) hne) }

/-- The finishing step changes ASTATE only (R202). -/
theorem Adpu.SameJob.finish (h : d.SameJob d') (live : d.astate ≠ .err) : d.finish.SameJob d'.finish where
  ainLen := h.ainLen
  ain := h.ain
  astate := rfl
  aerrCode := h.aerrCode
  state _ := h.state live
  position _ := h.position live
  outCount _ := h.outCount live
  pcm _ := h.pcm live

/-- The same job selects the same code (R203). -/
theorem Adpu.SameJob.code_eq (h : d.SameJob d') (live : d.astate ≠ .err) : d.code = d'.code := by
  obtain ⟨hapos, hnib⟩ := h.position live
  rw [Adpu.code, Adpu.code, h.ain, hapos, hnib]

/-- Every turn of ADPU keeps two units at the same point of the same job (R202, R240). -/
theorem adpuTurn_keeps_sameJob (h : s.adpu.SameJob s'.adpu) (ht : adpuTurn s = .next t)
    (ht' : adpuTurn s' = .next t') : t.adpu.SameJob t'.adpu := by
  by_cases hrun : s.adpu.astate = .run
  · have hrun' : s'.adpu.astate = .run := h.astate ▸ hrun
    have live : s.adpu.astate ≠ .err := by rw [hrun]; nofun
    have hapos := (h.position live).1
    rcases Nat.lt_or_ge s.adpu.apos s.adpu.ainLen with hleft | hconsumed
    · have hleft' : s'.adpu.apos < s'.adpu.ainLen := by rwa [← hapos, ← h.ainLen]
      rw [adpuTurn_code hrun hleft] at ht
      rw [adpuTurn_code hrun' hleft', ← h.code_eq live] at ht'
      obtain rfl := Host.Outcome.next.inj ht
      obtain rfl := Host.Outcome.next.inj ht'
      exact h.afterSample hrun _
    · have hconsumed' : s'.adpu.ainLen ≤ s'.adpu.apos := by rwa [← hapos, ← h.ainLen]
      obtain rfl := Host.Outcome.next.inj ((adpuTurn_finish hrun hconsumed).symm.trans ht)
      obtain rfl := Host.Outcome.next.inj ((adpuTurn_finish hrun' hconsumed').symm.trans ht')
      exact h.finish live
  · obtain rfl := Host.Outcome.next.inj ((adpuTurn_resting hrun).symm.trans ht)
    obtain rfl := Host.Outcome.next.inj ((adpuTurn_resting (h.astate ▸ hrun)).symm.trans ht')
    exact h

end SameCodes

/-! ### The obligations -/

/-- Settles O32: each unit's job start reads its inputs only and initialises every register it reads later
(`Rleu.SameInputs.jobStart`, `Adpu.jobStart_sameJob`). -/
theorem jobStartForgetsEarlierJobs : Obligations.JobStartForgetsEarlierJobs :=
  ⟨fun _ _ _ h => h.jobStart, fun _ _ _ => Adpu.jobStart_sameJob⟩

/-- Settles O33: each unit's turn goes the same way whatever an earlier job left (`rleuTurn_keeps_sameJob`,
`adpuTurn_keeps_sameJob`). -/
theorem turnsKeepTheSameJob : Obligations.TurnsKeepTheSameJob := by
  refine ⟨fun s s' t t' hparams h ht ht' => ?_, fun s s' t t' => adpuTurn_keeps_sameJob⟩
  have after := rleuTurn_keeps_sameJob hparams h
  rw [ht, ht'] at after
  cases after with
  | next same => exact same

end Sys2Proof.Machine
end
